-- ==== Sys2Proof/Word.lean ====
section
/-! DEFINITION. The machine's words: an 8-bit byte, a 16-bit word, and the widths of the instruction fields. -/

namespace Sys2Proof

/-- An 8-bit unsigned value: a register, a timer, a byte of memory, the constant `kk` (R6, R151). -/
abbrev Byte := BitVec 8

/-- A 16-bit value: the opcode, `I`, `pc`, a stack entry (R6, R50). -/
abbrev Word := BitVec 16

/-- A 4-bit register index, the fields `x` and `y` (R151). -/
abbrev RegIx := BitVec 4

/-- A 4-bit nibble, the field `n` (R151). -/
abbrev Nibble := BitVec 4

/-- A 12-bit address, the field `nnn` (R151). -/
abbrev Addr := BitVec 12

/-- The 16-key vector, one boolean for each key 0x0 to 0xF (R62, R405). -/
abbrev Keys := Vector Bool 16

end Sys2Proof
end

