-- ==== Sys2Proof/Syntax.lean ====
section
/-! DEFINITION. The instructions: one constructor for each of the 34 rows of the opcode table (R160), in the table's order.
The operands are the fields of R151, at their own widths. -/

namespace Sys2Proof

/-- The 34 instructions of R160. -/
inductive Instr where
  /-- `00E0` CLS (R350) -/
  | cls
  /-- `00EE` RET (R201) -/
  | ret
  /-- `1nnn` JP nnn (R202) -/
  | jp (nnn : Addr)
  /-- `2nnn` CALL nnn (R203) -/
  | call (nnn : Addr)
  /-- `3xkk` SE Vx, kk (R204) -/
  | seImm (x : RegIx) (kk : Byte)
  /-- `4xkk` SNE Vx, kk (R205) -/
  | sneImm (x : RegIx) (kk : Byte)
  /-- `5xy0` SE Vx, Vy (R206) -/
  | seReg (x y : RegIx)
  /-- `6xkk` LD Vx, kk (R250) -/
  | ldImm (x : RegIx) (kk : Byte)
  /-- `7xkk` ADD Vx, kk (R251) -/
  | addImm (x : RegIx) (kk : Byte)
  /-- `8xy0` LD Vx, Vy (R252) -/
  | ldReg (x y : RegIx)
  /-- `8xy1` OR Vx, Vy (R253) -/
  | orReg (x y : RegIx)
  /-- `8xy2` AND Vx, Vy (R254) -/
  | andReg (x y : RegIx)
  /-- `8xy3` XOR Vx, Vy (R255) -/
  | xorReg (x y : RegIx)
  /-- `8xy4` ADD Vx, Vy (R256) -/
  | addReg (x y : RegIx)
  /-- `8xy5` SUB Vx, Vy (R257) -/
  | subReg (x y : RegIx)
  /-- `8xy6` SHR Vx, Vy (R258) -/
  | shr (x y : RegIx)
  /-- `8xy7` SUBN Vx, Vy (R259) -/
  | subnReg (x y : RegIx)
  /-- `8xyE` SHL Vx, Vy (R260) -/
  | shl (x y : RegIx)
  /-- `9xy0` SNE Vx, Vy (R207) -/
  | sneReg (x y : RegIx)
  /-- `Annn` LD I, nnn (R300) -/
  | ldI (nnn : Addr)
  /-- `Bnnn` JP V0, nnn (R208) -/
  | jpV0 (nnn : Addr)
  /-- `Cxkk` RND Vx, kk (R261) -/
  | rnd (x : RegIx) (kk : Byte)
  /-- `Dxyn` DRW Vx, Vy, n (R360) -/
  | drw (x y : RegIx) (n : Nibble)
  /-- `Ex9E` SKP Vx (R403) -/
  | skp (x : RegIx)
  /-- `ExA1` SKNP Vx (R404) -/
  | sknp (x : RegIx)
  /-- `Fx07` LD Vx, DT (R400) -/
  | ldVxDt (x : RegIx)
  /-- `Fx0A` LD Vx, K (R410) -/
  | ldVxK (x : RegIx)
  /-- `Fx15` LD DT, Vx (R401) -/
  | ldDtVx (x : RegIx)
  /-- `Fx18` LD ST, Vx (R402) -/
  | ldStVx (x : RegIx)
  /-- `Fx1E` ADD I, Vx (R301) -/
  | addIVx (x : RegIx)
  /-- `Fx29` LD F, Vx (R302) -/
  | ldFVx (x : RegIx)
  /-- `Fx33` LD B, Vx (R303) -/
  | ldBVx (x : RegIx)
  /-- `Fx55` LD [I], Vx (R304) -/
  | ldMemVx (x : RegIx)
  /-- `Fx65` LD Vx, [I] (R305) -/
  | ldVxMem (x : RegIx)
  deriving DecidableEq, Repr

end Sys2Proof
end

