-- ==== Sys2Proof/Config.lean ====
section
/-! DEFINITION. The configurable parameters of R7, a record the machine takes as an argument, and the free values:
what the host supplies with each step (R8), and the parameter the spec leaves without a default. -/

namespace Sys2Proof

/-- `SHIFT_SOURCE` (R7, D12): the register `8xy6` and `8xyE` shift. -/
inductive ShiftSource where
  | vx
  | vy
  deriving DecidableEq, Repr, Inhabited

/-- `LOADSTORE_I_INCREMENT` (R7, D13): what `Fx55` and `Fx65` do to `I` afterwards. -/
inductive LoadStoreIncrement where
  | unchanged
  | xPlusOne
  deriving DecidableEq, Repr, Inhabited

/-- `FX0A_TRIGGER` (R7, R412, D15): what satisfies the key wait. -/
inductive KeyTrigger where
  | level
  | pressEdge
  deriving DecidableEq, Repr, Inhabited

/-- `OPERAND_RANGE_POLICY` (R7, R406, D16): a key index or font digit above 0xF. -/
inductive RangePolicy where
  | refuse
  | mask
  deriving DecidableEq, Repr, Inhabited

/-- The six parameters of R7, fixed when the machine is constructed. -/
structure Config where
  /-- `FONT_BASE`, with `FONT_BASE + 80 <= 0x200` (`Config.wellFormed`). -/
  fontBase : Addr
  /-- `FONT_DATA`, 16 glyphs of 5 bytes. -/
  fontData : Vector Byte 80
  shiftSource : ShiftSource
  loadStoreIncrement : LoadStoreIncrement
  keyTrigger : KeyTrigger
  rangePolicy : RangePolicy
  deriving DecidableEq, Repr

/-- `FX0A_TRIGGER` at reset: R7 leaves it OPEN, without a default, so nothing is known of it (log 2). -/
opaque Config.openTrigger : KeyTrigger

/-- The key snapshot the host supplies with its `n`-th turn, where the host's turn is not written out: free (R8, D35; log 4). -/
opaque Config.freeKeys : Nat → Keys

/-- The random byte of the host's `n`-th turn, where the host's turn is not written out: free (R8, D27; log 5). -/
opaque Config.freeRandom : Nat → Byte

/-- How often the host ticks before its `n`-th step, where the host's turn is not written out: free (R431, D26; log 6). -/
opaque Config.freeTicks : Nat → Nat

end Sys2Proof
end

