-- ==== Sys2Proof/WellFormed.lean ====
section
/-! DEFINITION. The checks on what is given to the machine from outside: the configuration (R7), the ROM (R502), and
the instruction, whose operands need none. -/

namespace Sys2Proof

/-- Every term of `Instr` is an instruction of R160: each operand has exactly its field's width (R151), and R152 and R163
reserve no operand value. So there is nothing to refuse (log 21). -/
def Instr.wellFormed (_ : Instr) : Bool := true

/-- The one constraint R7 puts on a parameter: the font lies below the ROM, `FONT_BASE + 80 <= 0x200` (D18). -/
def Config.wellFormed (c : Config) : Bool := c.fontBase.toNat + 80 ≤ 0x200

/-- A ROM of more than `4096 - 0x200` bytes is refused (R502). -/
def romFits (rom : List Byte) : Bool := rom.length ≤ 4096 - 0x200

end Sys2Proof
end

