-- ==== Sys2Proof/Decode.lean ====
section
/-! DEFINITION. Decoding a word or bytes to an instruction (R150, R151, R161), the encoder written from the same table,
and the mask/match table itself (R160). -/

namespace Sys2Proof

/-! ### The fields of a word (R151) -/

/-- `op[15:12]`, the high nibble. -/
def fieldH (op : Word) : Nibble := op.extractLsb' 12 4

/-- `op[11:8]`. -/
def fieldX (op : Word) : RegIx := op.extractLsb' 8 4

/-- `op[7:4]`. -/
def fieldY (op : Word) : RegIx := op.extractLsb' 4 4

/-- `op[3:0]`. -/
def fieldN (op : Word) : Nibble := op.extractLsb' 0 4

/-- `op[7:0]`. -/
def fieldKK (op : Word) : Byte := op.extractLsb' 0 8

/-- `op[11:0]`. -/
def fieldNNN (op : Word) : Addr := op.extractLsb' 0 12

/-! ### The decoder (R161) -/

/-- Family 0: selected on the whole word. -/
def decode0 (op : Word) : Option Instr :=
  if op = 0x00E0#16 then some .cls
  else if op = 0x00EE#16 then some .ret
  else none

/-- Family 8: sub-selected on the low nibble; 8 to D and F are illegal (R262). -/
def decode8 (op : Word) : Option Instr :=
  let x := fieldX op
  let y := fieldY op
  let n := fieldN op
  if n = 0x0#4 then some (.ldReg x y)
  else if n = 0x1#4 then some (.orReg x y)
  else if n = 0x2#4 then some (.andReg x y)
  else if n = 0x3#4 then some (.xorReg x y)
  else if n = 0x4#4 then some (.addReg x y)
  else if n = 0x5#4 then some (.subReg x y)
  else if n = 0x6#4 then some (.shr x y)
  else if n = 0x7#4 then some (.subnReg x y)
  else if n = 0xE#4 then some (.shl x y)
  else none

/-- Family E: sub-selected on the low byte. -/
def decodeE (op : Word) : Option Instr :=
  let x := fieldX op
  let kk := fieldKK op
  if kk = 0x9E#8 then some (.skp x)
  else if kk = 0xA1#8 then some (.sknp x)
  else none

/-- Family F: sub-selected on the low byte. -/
def decodeF (op : Word) : Option Instr :=
  let x := fieldX op
  let kk := fieldKK op
  if kk = 0x07#8 then some (.ldVxDt x)
  else if kk = 0x0A#8 then some (.ldVxK x)
  else if kk = 0x15#8 then some (.ldDtVx x)
  else if kk = 0x18#8 then some (.ldStVx x)
  else if kk = 0x1E#8 then some (.addIVx x)
  else if kk = 0x29#8 then some (.ldFVx x)
  else if kk = 0x33#8 then some (.ldBVx x)
  else if kk = 0x55#8 then some (.ldMemVx x)
  else if kk = 0x65#8 then some (.ldVxMem x)
  else none

/-- `Decode(op)` of R161; `none` is its UNKNOWN (R162). -/
def decodeWord (op : Word) : Option Instr :=
  let h := fieldH op
  if h = 0x0#4 then decode0 op
  else if h = 0x1#4 then some (.jp (fieldNNN op))
  else if h = 0x2#4 then some (.call (fieldNNN op))
  else if h = 0x3#4 then some (.seImm (fieldX op) (fieldKK op))
  else if h = 0x4#4 then some (.sneImm (fieldX op) (fieldKK op))
  else if h = 0x5#4 then (if fieldN op = 0x0#4 then some (.seReg (fieldX op) (fieldY op)) else none)
  else if h = 0x6#4 then some (.ldImm (fieldX op) (fieldKK op))
  else if h = 0x7#4 then some (.addImm (fieldX op) (fieldKK op))
  else if h = 0x8#4 then decode8 op
  else if h = 0x9#4 then (if fieldN op = 0x0#4 then some (.sneReg (fieldX op) (fieldY op)) else none)
  else if h = 0xA#4 then some (.ldI (fieldNNN op))
  else if h = 0xB#4 then some (.jpV0 (fieldNNN op))
  else if h = 0xC#4 then some (.rnd (fieldX op) (fieldKK op))
  else if h = 0xD#4 then some (.drw (fieldX op) (fieldY op) (fieldN op))
  else if h = 0xE#4 then decodeE op
  else decodeF op

/-- Why bytes hold no instruction. -/
inductive DecodeError where
  /-- fewer than the two bytes of an opcode (log 20) -/
  | truncated
  /-- the word matches no row of R160 (R162) -/
  | unknownOpcode (op : Word)
  deriving DecidableEq, Repr

/-- The big-endian word of two bytes, the first at the lower address (R102). -/
def wordOfBytes (first second : Byte) : Word := first ++ second

/-- Decode the first instruction of a sequence of bytes: it always consumes 2 bytes (R150). -/
def decode : List Byte → Except DecodeError (Instr × List Byte)
  | first :: second :: rest =>
    match decodeWord (wordOfBytes first second) with
    | some i => .ok (i, rest)
    | none => .error (.unknownOpcode (wordOfBytes first second))
  | _ => .error .truncated

/-! ### The encoder (R153, R160) -/

/-- Format `NNN`. -/
def encodeNNN (h : Nibble) (nnn : Addr) : Word := h ++ nnn

/-- Formats `XKK` and `XSS`. -/
def encodeXKK (h : Nibble) (x : RegIx) (kk : Byte) : Word := h ++ x ++ kk

/-- Formats `XYS` and `XYN`. -/
def encodeXYN (h : Nibble) (x y : RegIx) (n : Nibble) : Word := h ++ x ++ y ++ n

/-- The opcode word of an instruction. -/
def encode : Instr → Word
  | .cls => 0x00E0#16
  | .ret => 0x00EE#16
  | .jp nnn => encodeNNN 0x1#4 nnn
  | .call nnn => encodeNNN 0x2#4 nnn
  | .seImm x kk => encodeXKK 0x3#4 x kk
  | .sneImm x kk => encodeXKK 0x4#4 x kk
  | .seReg x y => encodeXYN 0x5#4 x y 0x0#4
  | .ldImm x kk => encodeXKK 0x6#4 x kk
  | .addImm x kk => encodeXKK 0x7#4 x kk
  | .ldReg x y => encodeXYN 0x8#4 x y 0x0#4
  | .orReg x y => encodeXYN 0x8#4 x y 0x1#4
  | .andReg x y => encodeXYN 0x8#4 x y 0x2#4
  | .xorReg x y => encodeXYN 0x8#4 x y 0x3#4
  | .addReg x y => encodeXYN 0x8#4 x y 0x4#4
  | .subReg x y => encodeXYN 0x8#4 x y 0x5#4
  | .shr x y => encodeXYN 0x8#4 x y 0x6#4
  | .subnReg x y => encodeXYN 0x8#4 x y 0x7#4
  | .shl x y => encodeXYN 0x8#4 x y 0xE#4
  | .sneReg x y => encodeXYN 0x9#4 x y 0x0#4
  | .ldI nnn => encodeNNN 0xA#4 nnn
  | .jpV0 nnn => encodeNNN 0xB#4 nnn
  | .rnd x kk => encodeXKK 0xC#4 x kk
  | .drw x y n => encodeXYN 0xD#4 x y n
  | .skp x => encodeXKK 0xE#4 x 0x9E#8
  | .sknp x => encodeXKK 0xE#4 x 0xA1#8
  | .ldVxDt x => encodeXKK 0xF#4 x 0x07#8
  | .ldVxK x => encodeXKK 0xF#4 x 0x0A#8
  | .ldDtVx x => encodeXKK 0xF#4 x 0x15#8
  | .ldStVx x => encodeXKK 0xF#4 x 0x18#8
  | .addIVx x => encodeXKK 0xF#4 x 0x1E#8
  | .ldFVx x => encodeXKK 0xF#4 x 0x29#8
  | .ldBVx x => encodeXKK 0xF#4 x 0x33#8
  | .ldMemVx x => encodeXKK 0xF#4 x 0x55#8
  | .ldVxMem x => encodeXKK 0xF#4 x 0x65#8

/-- `op[15:8]`, the byte at the lower address (R102). -/
def highByte (op : Word) : Byte := op.extractLsb' 8 8

/-- `op[7:0]`, the byte at the higher address (R102). -/
def lowByte (op : Word) : Byte := op.extractLsb' 0 8

/-- The two bytes of an instruction as they lie in memory (R102). -/
def encodeBytes (i : Instr) : List Byte := [highByte (encode i), lowByte (encode i)]

/-! ### The mask/match table (R160) -/

/-- A row of R160: a word is that instruction when `op & mask = pattern`. -/
structure OpcodeRow where
  mask : Word
  pattern : Word
  deriving DecidableEq, Repr

/-- The test of R160. -/
def OpcodeRow.accepts (r : OpcodeRow) (op : Word) : Bool := op &&& r.mask == r.pattern

/-- The row of R160 an instruction belongs to, copied from the table of the rule and not from `encode`. -/
def rowOf : Instr → OpcodeRow
  | .cls => ⟨0xFFFF#16, 0x00E0#16⟩
  | .ret => ⟨0xFFFF#16, 0x00EE#16⟩
  | .jp _ => ⟨0xF000#16, 0x1000#16⟩
  | .call _ => ⟨0xF000#16, 0x2000#16⟩
  | .seImm _ _ => ⟨0xF000#16, 0x3000#16⟩
  | .sneImm _ _ => ⟨0xF000#16, 0x4000#16⟩
  | .seReg _ _ => ⟨0xF00F#16, 0x5000#16⟩
  | .ldImm _ _ => ⟨0xF000#16, 0x6000#16⟩
  | .addImm _ _ => ⟨0xF000#16, 0x7000#16⟩
  | .ldReg _ _ => ⟨0xF00F#16, 0x8000#16⟩
  | .orReg _ _ => ⟨0xF00F#16, 0x8001#16⟩
  | .andReg _ _ => ⟨0xF00F#16, 0x8002#16⟩
  | .xorReg _ _ => ⟨0xF00F#16, 0x8003#16⟩
  | .addReg _ _ => ⟨0xF00F#16, 0x8004#16⟩
  | .subReg _ _ => ⟨0xF00F#16, 0x8005#16⟩
  | .shr _ _ => ⟨0xF00F#16, 0x8006#16⟩
  | .subnReg _ _ => ⟨0xF00F#16, 0x8007#16⟩
  | .shl _ _ => ⟨0xF00F#16, 0x800E#16⟩
  | .sneReg _ _ => ⟨0xF00F#16, 0x9000#16⟩
  | .ldI _ => ⟨0xF000#16, 0xA000#16⟩
  | .jpV0 _ => ⟨0xF000#16, 0xB000#16⟩
  | .rnd _ _ => ⟨0xF000#16, 0xC000#16⟩
  | .drw _ _ _ => ⟨0xF000#16, 0xD000#16⟩
  | .skp _ => ⟨0xF0FF#16, 0xE09E#16⟩
  | .sknp _ => ⟨0xF0FF#16, 0xE0A1#16⟩
  | .ldVxDt _ => ⟨0xF0FF#16, 0xF007#16⟩
  | .ldVxK _ => ⟨0xF0FF#16, 0xF00A#16⟩
  | .ldDtVx _ => ⟨0xF0FF#16, 0xF015#16⟩
  | .ldStVx _ => ⟨0xF0FF#16, 0xF018#16⟩
  | .addIVx _ => ⟨0xF0FF#16, 0xF01E#16⟩
  | .ldFVx _ => ⟨0xF0FF#16, 0xF029#16⟩
  | .ldBVx _ => ⟨0xF0FF#16, 0xF033#16⟩
  | .ldMemVx _ => ⟨0xF0FF#16, 0xF055#16⟩
  | .ldVxMem _ => ⟨0xF0FF#16, 0xF065#16⟩

/-- One instruction of each row, in the table's order; only its row matters. -/
def rowRepresentatives : List Instr :=
  [.cls, .ret, .jp 0, .call 0, .seImm 0 0, .sneImm 0 0, .seReg 0 0, .ldImm 0 0, .addImm 0 0] ++
  [.ldReg 0 0, .orReg 0 0, .andReg 0 0, .xorReg 0 0, .addReg 0 0, .subReg 0 0, .shr 0 0, .subnReg 0 0, .shl 0 0] ++
  [.sneReg 0 0, .ldI 0, .jpV0 0, .rnd 0 0, .drw 0 0 0, .skp 0, .sknp 0] ++
  [.ldVxDt 0, .ldVxK 0, .ldDtVx 0, .ldStVx 0, .addIVx 0, .ldFVx 0, .ldBVx 0, .ldMemVx 0, .ldVxMem 0]

/-- The 34 rows of R160. -/
def opcodeTable : List OpcodeRow := rowRepresentatives.map rowOf

/-! ### The host's question about one row of the opcode table -/

/-- The instruction the decoder reads from the bits `w`, of which the table gives `nbits`; the rest of the word is 0.
The word is laid out as memory holds it, high byte first (R102), and given to `decode`. -/
def decodeTableWord (nbits w : Nat) : Option Instr :=
  let op : Word := BitVec.ofNat 16 (w % 2 ^ nbits)
  match decode [highByte op, lowByte op] with
  | .ok (i, _) => some i
  | .error _ => none

end Sys2Proof
end

