-- ==== Sys2Proof/Machine/Defaults.lean ====
section
/-! DEFINITION. What construction puts into memory below the ROM, and the configuration of the reset machine. -/

namespace Sys2Proof.Machine

/-- The byte at address `a` after construction without a ROM: memory zeroed, then the font loaded at `FONT_BASE`
(R68, R107, R501). This is what an address reads as that `State.mem` does not list (log 10). -/
def constructedByte (c : Config) (a : Nat) : Byte :=
  if h : c.fontBase.toNat ≤ a ∧ a < c.fontBase.toNat + 80 then
    c.fontData[a - c.fontBase.toNat]'(by omega)
  else 0x00#8

/-- The default `FONT_DATA` of R66: the conventional hexadecimal font, general knowledge in the spec (G1; log 3). -/
def defaultFont : Vector Byte 80 :=
  #v[0xF0, 0x90, 0x90, 0x90, 0xF0,  0x20, 0x60, 0x20, 0x20, 0x70,
     0xF0, 0x10, 0xF0, 0x80, 0xF0,  0xF0, 0x10, 0xF0, 0x10, 0xF0,
     0x90, 0x90, 0xF0, 0x10, 0x10,  0xF0, 0x80, 0xF0, 0x10, 0xF0,
     0xF0, 0x80, 0xF0, 0x90, 0xF0,  0xF0, 0x10, 0x20, 0x40, 0x40,
     0xF0, 0x90, 0xF0, 0x90, 0xF0,  0xF0, 0x90, 0xF0, 0x10, 0xF0,
     0xF0, 0x90, 0xF0, 0x90, 0x90,  0xE0, 0x90, 0xE0, 0x90, 0xE0,
     0xF0, 0x80, 0x80, 0x80, 0xF0,  0xE0, 0x90, 0x90, 0x90, 0xE0,
     0xF0, 0x80, 0xF0, 0x80, 0xF0,  0xF0, 0x80, 0xF0, 0x80, 0x80]

/-- The default configuration of R7; `FX0A_TRIGGER` has no default and stays open (log 2). -/
def defaultConfig : Config where
  fontBase := 0x050#12
  fontData := defaultFont
  shiftSource := .vx
  loadStoreIncrement := .unchanged
  keyTrigger := Config.openTrigger
  rangePolicy := .refuse

/-- No key pressed. -/
def noKeys : Keys := Vector.replicate 16 false

end Sys2Proof.Machine
end

