-- ==== Sys2Proof/Machine/Memory.lean ====
section
/-! DEFINITION. Memory as plain data: the listed bytes, their canonical form, reading and writing one byte.
`base` is what an unlisted address reads as; which byte that is at an address, Machine/Defaults.lean says once. -/

namespace Sys2Proof.Machine

/-- The listed bytes (`Host.Cell`), addresses strictly rising. -/
abbrev Memory := List Host.Cell

/-- The byte at address `a`. -/
def Memory.read (base : Byte) : Memory → Nat → Byte
  | [], _ => base
  | (b, w) :: rest, a => if a = b then w else Memory.read base rest a

/-- Insert a cell before the first cell of a higher address. -/
def Memory.insert (c : Host.Cell) : Memory → Memory
  | [] => [c]
  | d :: rest => if c.1 < d.1 then c :: d :: rest else d :: Memory.insert c rest

/-- Set the byte at address `a`: its old cell goes, and a new one comes unless the address would read so unlisted. -/
def Memory.write (base : Byte) (m : Memory) (a : Nat) (v : Byte) : Memory :=
  let others := m.filter (fun c => c.1 != a)
  if v = base then others else Memory.insert (a, v) others

/-- The canonical form: addresses below 4096 and strictly rising, no cell equal to what its address reads as unlisted. -/
def Memory.wf (base : Nat → Byte) (m : Memory) : Bool :=
  decide (m.Pairwise (fun c d => c.1 < d.1)) && m.all (fun c => c.1 < 4096 && c.2 != base c.1)

end Sys2Proof.Machine
end

