-- ==== Sys2Proof/Machine/State.lean ====
section
/-! DEFINITION. The state (R50), the reasons a step can stop (R451), and the machine right after reset (R68). -/

namespace Sys2Proof.Machine

/-- One turn of the host as far as it concerns the core: some ticks, then one `step` with its key snapshot and its
random draw (R8, R431, R461). -/
structure HostTurn where
  ticks : Nat
  keys : Keys
  rnd : Byte
  deriving DecidableEq, Repr

/-- The state of the machine. The first ten fields are the record of R50; `keys` and `rnd` are the inputs of the step
in progress; `cfg` is the configuration; `turns` and `turnsTaken` are the model's own. -/
structure State where
  /-- The bytes of the 4096-byte memory that differ from `constructedByte` (R50, R100; log 10). -/
  mem : Memory
  /-- `V[0]` to `V[15]` (R51). -/
  v : Vector Byte 16
  /-- The index register `I` (R54, R55). -/
  i : Word
  /-- The program counter (R56). -/
  pc : Word
  /-- The return stack, its top first; `depth` is its length (R57; log 18). -/
  stack : List Word
  /-- The delay timer `DT` (R60). -/
  dt : Byte
  /-- The sound timer `ST` (R60). -/
  st : Byte
  /-- The display: 32 rows of 64 pixels, column `px` of a row at its bit `px` (R50, R61; log 18). -/
  disp : Vector (BitVec 64) 32
  /-- `WAIT`: the register of the `Fx0A` that is blocked at `pc` (R63). -/
  wait : Option RegIx
  /-- `WAIT_PREV`: the snapshot of the previous waiting step, used under `press_edge` (R63). -/
  waitPrev : Keys
  /-- The input latch: the key snapshot of the step in progress (R62, R405; log 4). -/
  keys : Keys
  /-- The random draw of the step in progress (R8; log 5). -/
  rnd : Byte
  /-- The configuration, which nothing changes (R7, R64; log 1). -/
  cfg : Config
  /-- The host's coming turns as far as they are written out; after them they are free (log 6). -/
  turns : List HostTurn
  /-- How many turns the host has taken: what the free values are applied to (log 4, 5, 6). -/
  turnsTaken : Nat
  deriving DecidableEq, Repr

/-- The fault causes of R451, each with the recorded word and its address. A fault ends the step and changes nothing
(R452), so the outcome carries no state; the host may go on from the unchanged machine (Machine/HostOps.lean; log 8). -/
inductive Fault where
  /-- Raised by `2nnn` when the stack holds 16 entries (R203). Safe: the spec's own outcome. -/
  | stackOverflow (opcode pc : Word)
  /-- Raised by `00EE` when the stack is empty (R201). Safe: the spec's own outcome. -/
  | stackUnderflow (opcode pc : Word)
  /-- Raised by the instruction cycle on a word that matches no row of R160 (R162). Safe: the spec's own outcome. -/
  | unknownOpcode (opcode pc : Word)
  /-- Raised by `Ex9E`, `ExA1` and `Fx29` when `V[x] > 0xF` under `refuse` (R406, R302). Safe: the spec's own outcome. -/
  | outOfSpec (opcode pc : Word)
  deriving DecidableEq, Repr

/-- The reasons a step has no meaning. Every instruction of the table has one, so no arm answers this. -/
inductive Refusal where
  /-- Raised by an arm of `exec` whose instruction has no meaning yet. Safe: nothing can be proved of such a run. -/
  | notModelled (mnemonic : String)
  deriving DecidableEq, Repr

/-- The machine after construction with an empty ROM and the default configuration (R68, R501, R502). -/
def State.reset : State where
  mem := []
  v := Vector.replicate 16 0x00#8
  i := 0x0000#16
  pc := 0x0200#16
  stack := []
  dt := 0x00#8
  st := 0x00#8
  disp := Vector.replicate 32 0x0000000000000000#64
  wait := none
  waitPrev := noKeys
  keys := noKeys
  rnd := 0x00#8
  cfg := defaultConfig
  turns := []
  turnsTaken := 0

end Sys2Proof.Machine
end

