-- ==== Sys2Proof/Machine/Ops.lean ====
section
/-! DEFINITION. The named operations over registers, memory and stack, and raising a fault. Every access to a component of
the state goes through them. -/

namespace Sys2Proof.Machine

/-- What a step of this machine answers. -/
abbrev Answer := Host.Outcome State Fault Refusal

/-! ### Wrapping (R10) -/

/-- `wrap8`. -/
def wrap8 (n : Nat) : Byte := BitVec.ofNat 8 (n % 256)

/-- `wrap12`, as the 16-bit value that `pc` and `I` store. -/
def wrap12 (n : Nat) : Word := BitVec.ofNat 16 (n % 4096)

/-! ### Registers (R51 to R56) -/

/-- The index of `VF`. -/
def vf : RegIx := 0xF#4

/-- `V[x]`. -/
def State.reg (s : State) (x : RegIx) : Byte := s.v[x.toNat]'x.isLt

/-- `V[x] <- b`. -/
def State.setReg (s : State) (x : RegIx) (b : Byte) : State := { s with v := s.v.set x.toNat b x.isLt }

/-- `I <- n`, stored modulo 4096 (R55). -/
def State.setI (s : State) (n : Nat) : State := { s with i := wrap12 n }

/-- `pc <- n`, stored modulo 4096 (R56). -/
def State.setPc (s : State) (n : Nat) : State := { s with pc := wrap12 n }

/-- PC advances by 2 (R13, R172). -/
def State.advance (s : State) : State := s.setPc (s.pc.toNat + 2)

/-- A skip: `pc <- A + 4` when the condition holds, else `pc <- A + 2` (R173). -/
def State.skipIf (s : State) (c : Bool) : State := s.setPc (s.pc.toNat + if c then 4 else 2)

/-! ### Memory (R100, R101, R105) -/

/-- `MemRead(a, 1)`. -/
def State.readByte (s : State) (a : Nat) : Byte :=
  Memory.read (constructedByte s.cfg (a % 4096)) s.mem (a % 4096)

/-- `MemWrite(a, 1, b)`. -/
def State.writeByte (s : State) (a : Nat) (b : Byte) : State :=
  { s with mem := Memory.write (constructedByte s.cfg (a % 4096)) s.mem (a % 4096) b }

/-- `Fetch(a)`: the big-endian word at `a` and `a + 1`, each wrapped by itself (R101, R102). -/
def State.fetch (s : State) (a : Nat) : Word := wordOfBytes (s.readByte a) (s.readByte (a + 1))

/-- The word at `pc`. -/
def State.fetchPc (s : State) : Word := s.fetch s.pc.toNat

/-- The word `op` placed at `a`, high byte first (R102). -/
def State.placeWord (s : State) (a : Nat) (op : Word) : State :=
  (s.writeByte a (highByte op)).writeByte (a + 1) (lowByte op)

/-- A sequence of bytes placed from `a` upwards (R501). -/
def State.writeBytes (s : State) (a : Nat) : List Byte → State
  | [] => s
  | b :: rest => (s.writeByte a b).writeBytes (a + 1) rest

/-- The `k`-th byte an instruction moves lies at `I + k` (R306); reading and writing wrap it. -/
def State.effective (s : State) (k : Nat) : Nat := s.i.toNat + k

/-- The bytes at `I` to `I + n - 1`, in order (R360). -/
def State.readBytes (s : State) (n : Nat) : List Byte := (List.range n).map fun r => s.readByte (s.effective r)

/-- `MemWrite(I + i, 1, V[i])` for `i` from 0 to `n - 1`, in that order (R304). -/
def State.storeRegs (s : State) : Nat → State
  | 0 => s
  | n + 1 => (s.storeRegs n).writeByte (s.effective n) (s.reg (BitVec.ofNat 4 n))

/-- `V[i] <- MemRead(I + i, 1)` for `i` from 0 to `n - 1`, in that order (R305). -/
def State.loadRegs (s : State) : Nat → State
  | 0 => s
  | n + 1 => (s.loadRegs n).setReg (BitVec.ofNat 4 n) (s.readByte (s.effective n))

/-! ### The stack (R57 to R59) -/

/-- The number of return addresses on the stack. -/
def State.depth (s : State) : Nat := s.stack.length

/-- `STACK_DEPTH` (R6). -/
def stackDepth : Nat := 16

/-- `push(a)`, the address stored modulo 4096 (R57, R58). The caller has checked the depth. -/
def State.push (s : State) (a : Nat) : State := { s with stack := wrap12 a :: s.stack }

/-- `pop()`: the top entry and the state without it; none when the stack is empty (R59). -/
def State.pop (s : State) : Option (Word × State) :=
  match s.stack with
  | [] => none
  | top :: rest => some (top, { s with stack := rest })

/-! ### Timers, display, wait state (R60, R61, R63) -/

/-- `DT <- b`. -/
def State.setDt (s : State) (b : Byte) : State := { s with dt := b }

/-- `ST <- b`. -/
def State.setSt (s : State) (b : Byte) : State := { s with st := b }

/-- Replace the display. -/
def State.setDisp (s : State) (d : Vector (BitVec 64) 32) : State := { s with disp := d }

/-- `WAIT <- w`. -/
def State.setWait (s : State) (w : Option RegIx) : State := { s with wait := w }

/-- `WAIT_PREV <- ks`. -/
def State.setWaitPrev (s : State) (ks : Keys) : State := { s with waitPrev := ks }

/-- `Key(k)`: key `k` is pressed in this step's snapshot (R405). -/
def State.key (s : State) (k : Fin 16) : Bool := s.keys[k]

/-! ### Raising a fault (R451, R452, R457) -/

/-- `raise F(info)`: the step ends with the cause, the word `op` and its address `A`, which is the value of `pc`.
Nothing is saved, no mode changes and control goes nowhere (R457), so this is the whole of taking an exception. -/
def State.raise (s : State) (cause : Word → Word → Fault) (op : Word) : Answer := .fault (cause op s.pc)

/-- The numeric code of a cause (R451). -/
def Fault.code : Fault → Nat
  | .stackOverflow _ _ => 1
  | .stackUnderflow _ _ => 2
  | .unknownOpcode _ _ => 3
  | .outOfSpec _ _ => 4

/-- The recorded word (R451). -/
def Fault.opcode : Fault → Word
  | .stackOverflow op _ => op
  | .stackUnderflow op _ => op
  | .unknownOpcode op _ => op
  | .outOfSpec op _ => op

/-- The recorded address (R451). -/
def Fault.address : Fault → Word
  | .stackOverflow _ a => a
  | .stackUnderflow _ a => a
  | .unknownOpcode _ a => a
  | .outOfSpec _ a => a

/-- The host may skip past this fault (R462). -/
def Fault.skippable : Fault → Bool
  | .stackOverflow _ _ => false
  | .stackUnderflow _ _ => false
  | .unknownOpcode _ _ => true
  | .outOfSpec _ _ => true

end Sys2Proof.Machine
end

