-- ==== Sys2Proof/Machine/Flags.lean ====
section
/-! DEFINITION. Every computation of the flag `VF` (R52), and the write of a result with its flag (R174). -/

namespace Sys2Proof.Machine

/-- A condition as the value written to `VF`. -/
def flagByte (c : Bool) : Byte := if c then 0x01#8 else 0x00#8

/-- Carry out of bit 7 of `a + b` (R256). -/
def carry (a b : Byte) : Bool := 255 < a.toNat + b.toNat

/-- NOT borrow of `a - b`: set when `a >= b` (R257, R259; D10). -/
def notBorrow (a b : Byte) : Bool := b.toNat ≤ a.toNat

/-- The bit a right shift by one moves out (R258). -/
def shiftedOutRight (a : Byte) : Bool := a.getLsbD 0

/-- The bit a left shift by one moves out (R260). -/
def shiftedOutLeft (a : Byte) : Bool := a.getLsbD 7

/-- `V[x] <- r`, then `VF <- c`: the flag is written last, so it is what `VF` holds when `x` is `VF` (R174; D9). -/
def State.setRegFlag (s : State) (x : RegIx) (r : Byte) (c : Bool) : State := (s.setReg x r).setReg vf (flagByte c)

end Sys2Proof.Machine
end

