-- ==== Sys2Proof/Machine/Operands.lean ====
section
/-! DEFINITION. The operand forms that depend on the configuration or on the step's inputs. -/

namespace Sys2Proof.Machine

/-- The byte `8xy6` and `8xyE` shift: `V[x]` or `V[y]` by `SHIFT_SOURCE` (R258, R260; D12). -/
def State.shiftOperand (s : State) (x y : RegIx) : Byte :=
  match s.cfg.shiftSource with
  | .vx => s.reg x
  | .vy => s.reg y

/-- A register value used as a key index or a font digit: itself when at most 0xF; above that `none` (an `OutOfSpec`
fault) under `refuse` and its low nibble under `mask` (R302, R406; D16). -/
def State.nibbleOperand (s : State) (b : Byte) : Option Nibble :=
  if b.toNat ≤ 0xF then some (b.extractLsb' 0 4)
  else
    match s.cfg.rangePolicy with
    | .refuse => none
    | .mask => some (b.extractLsb' 0 4)

/-- `FONT_BASE + 5 * d` (R302; D17). -/
def State.glyphAddress (s : State) (d : Nibble) : Nat := s.cfg.fontBase.toNat + 5 * d.toNat

/-- What `Fx55` and `Fx65` do to `I` afterwards (R304, R305; D13). -/
def State.bumpI (s : State) (x : RegIx) : State :=
  { s with
    i := match s.cfg.loadStoreIncrement with
      | .unchanged => s.i
      | .xPlusOne => wrap12 (s.i.toNat + x.toNat + 1) }

/-- The hundreds, tens and ones digits of a byte (R303). -/
def bcdDigits (b : Byte) : Byte × Byte × Byte :=
  (BitVec.ofNat 8 (b.toNat / 100), BitVec.ofNat 8 (b.toNat / 10 % 10), BitVec.ofNat 8 (b.toNat % 10))

/-- The lowest-numbered key of a set, as a 4-bit index (R411). -/
def lowestKey (candidate : Fin 16 → Bool) : Option Nibble :=
  ((List.finRange 16).find? candidate).map fun k => BitVec.ofFin k

/-- The keys that satisfy the wait in a step taken while `WAIT = Some(x)` (R412). -/
def State.waitCandidate (s : State) (k : Fin 16) : Bool :=
  match s.cfg.keyTrigger with
  | .level => s.key k
  | .pressEdge => s.key k && !s.waitPrev[k]

/-- The keys that satisfy the first execution of `Fx0A`: under `press_edge` none ever does (R410, R412). -/
def State.firstCandidate (s : State) (k : Fin 16) : Bool :=
  match s.cfg.keyTrigger with
  | .level => s.key k
  | .pressEdge => false

/-- What a step that stays blocked keeps of its snapshot: `WAIT_PREV` under `press_edge` (R410, R420). -/
def State.rememberKeys (s : State) : State :=
  { s with
    waitPrev := match s.cfg.keyTrigger with
      | .level => s.waitPrev
      | .pressEdge => s.keys }

end Sys2Proof.Machine
end

