-- ==== Sys2Proof/Machine/Alu.lean ====
section
/-! DEFINITION. Register loads and arithmetic (41_alu.md). Every instruction here retires with `pc <- A + 2`. -/

namespace Sys2Proof.Machine

/-- `6xkk` LD Vx, kk (R250). -/
def execLdImm (x : RegIx) (kk : Byte) (s : State) : Answer := .next (s.setReg x kk).advance

/-- `7xkk` ADD Vx, kk (R251): no carry is recorded. -/
def execAddImm (x : RegIx) (kk : Byte) (s : State) : Answer :=
  .next (s.setReg x (wrap8 ((s.reg x).toNat + kk.toNat))).advance

/-- `8xy0` LD Vx, Vy (R252). -/
def execLdReg (x y : RegIx) (s : State) : Answer := .next (s.setReg x (s.reg y)).advance

/-- `8xy1` OR Vx, Vy (R253): `VF` is not reset (D11). -/
def execOrReg (x y : RegIx) (s : State) : Answer := .next (s.setReg x (s.reg x ||| s.reg y)).advance

/-- `8xy2` AND Vx, Vy (R254). -/
def execAndReg (x y : RegIx) (s : State) : Answer := .next (s.setReg x (s.reg x &&& s.reg y)).advance

/-- `8xy3` XOR Vx, Vy (R255). -/
def execXorReg (x y : RegIx) (s : State) : Answer := .next (s.setReg x (s.reg x ^^^ s.reg y)).advance

/-- `8xy4` ADD Vx, Vy (R256): `VF` is the carry. -/
def execAddReg (x y : RegIx) (s : State) : Answer :=
  let a := s.reg x
  let b := s.reg y
  .next (s.setRegFlag x (wrap8 (a.toNat + b.toNat)) (carry a b)).advance

/-- `8xy5` SUB Vx, Vy (R257): `VF` is NOT borrow. -/
def execSubReg (x y : RegIx) (s : State) : Answer :=
  let a := s.reg x
  let b := s.reg y
  .next (s.setRegFlag x (wrap8 (256 + a.toNat - b.toNat)) (notBorrow a b)).advance

/-- `8xy6` SHR Vx, Vy (R258): `VF` is bit 0 before the shift. -/
def execShr (x y : RegIx) (s : State) : Answer :=
  let src := s.shiftOperand x y
  .next (s.setRegFlag x (src >>> 1) (shiftedOutRight src)).advance

/-- `8xy7` SUBN Vx, Vy (R259): `VF` is NOT borrow of `V[y] - V[x]`. -/
def execSubnReg (x y : RegIx) (s : State) : Answer :=
  let a := s.reg x
  let b := s.reg y
  .next (s.setRegFlag x (wrap8 (256 + b.toNat - a.toNat)) (notBorrow b a)).advance

/-- `8xyE` SHL Vx, Vy (R260): `VF` is bit 7 before the shift. -/
def execShl (x y : RegIx) (s : State) : Answer :=
  let src := s.shiftOperand x y
  .next (s.setRegFlag x (wrap8 (src.toNat * 2)) (shiftedOutLeft src)).advance

/-- `Cxkk` RND Vx, kk (R261): the step's random draw under a mask. -/
def execRnd (x : RegIx) (kk : Byte) (s : State) : Answer := .next (s.setReg x (s.rnd &&& kk)).advance

end Sys2Proof.Machine
end

