-- ==== Sys2Proof/Machine/Control.lean ====
section
/-! DEFINITION. Control transfer and skips (40_control_flow.md). -/

namespace Sys2Proof.Machine

/-- `00EE` RET (R201): StackUnderflow on an empty stack, else `pc <- pop()` with no further +2. -/
def execRet (s : State) : Answer :=
  match s.pop with
  | none => s.raise .stackUnderflow (encode .ret)
  | some (target, t) => .next (t.setPc target.toNat)

/-- `1nnn` JP (R202). -/
def execJp (nnn : Addr) (s : State) : Answer := .next (s.setPc nnn.toNat)

/-- `2nnn` CALL (R203): StackOverflow when 16 entries are stacked (log 12), else push the address after the call. -/
def execCall (nnn : Addr) (s : State) : Answer :=
  if s.depth < stackDepth then .next ((s.push (s.pc.toNat + 2)).setPc nnn.toNat)
  else s.raise .stackOverflow (encode (.call nnn))

/-- `3xkk` SE Vx, kk (R204). -/
def execSeImm (x : RegIx) (kk : Byte) (s : State) : Answer := .next (s.skipIf (s.reg x == kk))

/-- `4xkk` SNE Vx, kk (R205). -/
def execSneImm (x : RegIx) (kk : Byte) (s : State) : Answer := .next (s.skipIf (s.reg x != kk))

/-- `5xy0` SE Vx, Vy (R206). -/
def execSeReg (x y : RegIx) (s : State) : Answer := .next (s.skipIf (s.reg x == s.reg y))

/-- `9xy0` SNE Vx, Vy (R207). -/
def execSneReg (x y : RegIx) (s : State) : Answer := .next (s.skipIf (s.reg x != s.reg y))

/-- `Bnnn` JP V0, nnn (R208). -/
def execJpV0 (nnn : Addr) (s : State) : Answer := .next (s.setPc (nnn.toNat + (s.reg 0x0#4).toNat))

end Sys2Proof.Machine
end

