-- ==== Sys2Proof/Machine/Surface.lean ====
section
/-! DEFINITION. The display surface (R61, R351): one pixel, clearing, and the XOR blit with collision detection (R354). -/

namespace Sys2Proof.Machine

/-- The display: 32 rows of 64 pixels. -/
abbrev Display := Vector (BitVec 64) 32

/-- `Pix(px, py)`, the coordinates taken modulo 64 and 32 (R61). -/
def Display.pix (d : Display) (px py : Nat) : Bool := (d[py % 32]'(Nat.mod_lt _ (by omega))).getLsbD (px % 64)

/-- `Pix(px, py) <- Pix(px, py) ^ 1`. -/
def Display.toggle (d : Display) (px py : Nat) : Display :=
  d.set (py % 32) ((d[py % 32]'(Nat.mod_lt _ (by omega))) ^^^ BitVec.twoPow 64 (px % 64)) (Nat.mod_lt _ (by omega))

/-- Every pixel 0 (R350, R351). -/
def Display.cleared : Display := Vector.replicate 32 0x0000000000000000#64

/-- A display and whether a pixel has gone from 1 to 0. -/
structure Drawn where
  disp : Display
  collision : Bool
  deriving DecidableEq, Repr

/-- One sprite bit at `(px, py)`: a 0 leaves its pixel, a 1 toggles it and collides if it was set (R354). -/
def Drawn.bit (a : Drawn) (b : Bool) (px py : Nat) : Drawn :=
  if b then { disp := Display.toggle a.disp px py, collision := a.collision || Display.pix a.disp px py } else a

/-- The first `c` columns of a sprite row at `(x0, y)`: bit `7 - c` is at column `x0 + c` (R353, R354; D20). -/
def Drawn.row (a : Drawn) (b : Byte) (x0 y : Nat) : Nat → Drawn
  | 0 => a
  | c + 1 => (a.row b x0 y c).bit (b.getLsbD (7 - c)) (x0 + c) y

/-- The rows of a sprite, the first at row `y0`. -/
def Drawn.rows (a : Drawn) (x0 y0 : Nat) : List Byte → Drawn
  | [] => a
  | b :: rest => (a.row b x0 y0 8).rows x0 (y0 + 1) rest

/-- `blit(x0, y0, rows)` (R354). -/
def blit (d : Display) (x0 y0 : Nat) (rows : List Byte) : Drawn := Drawn.rows { disp := d, collision := false } x0 y0 rows

end Sys2Proof.Machine
end

