-- ==== Sys2Proof/Machine/Draw.lean ====
section
/-! DEFINITION. The display instructions (43_display.md). Both retire with `pc <- A + 2`. -/

namespace Sys2Proof.Machine

/-- `00E0` CLS (R350): `VF` is not written. -/
def execCls (s : State) : Answer := .next (s.setDisp Display.cleared).advance

/-- `Dxyn` DRW Vx, Vy, n (R360): `n` rows from memory at `I`, at column `V[x]` and row `V[y]`; `VF` is the collision flag,
always written, after the coordinates and the sprite are read (R174; D22, D23). -/
def execDrw (x y : RegIx) (n : Nibble) (s : State) : Answer :=
  let drawn := blit s.disp (s.reg x).toNat (s.reg y).toNat (s.readBytes n.toNat)
  .next ((s.setDisp drawn.disp).setReg vf (flagByte drawn.collision)).advance

end Sys2Proof.Machine
end

