-- ==== Sys2Proof/Machine/Index.lean ====
section
/-! DEFINITION. The index register, loads and stores (42_index_memory.md). Every instruction here retires with
`pc <- A + 2` unless it raises. -/

namespace Sys2Proof.Machine

/-- `Annn` LD I, nnn (R300). -/
def execLdI (nnn : Addr) (s : State) : Answer := .next (s.setI nnn.toNat).advance

/-- `Fx1E` ADD I, Vx (R301): modulo 4096, `VF` unaffected (D4). -/
def execAddIVx (x : RegIx) (s : State) : Answer := .next (s.setI (s.i.toNat + (s.reg x).toNat)).advance

/-- `Fx29` LD F, Vx (R302): the glyph of the digit `V[x]`; OutOfSpec above 0xF under `refuse`. -/
def execLdFVx (x : RegIx) (s : State) : Answer :=
  match s.nibbleOperand (s.reg x) with
  | none => s.raise .outOfSpec (encode (.ldFVx x))
  | some d => .next (s.setI (s.glyphAddress d)).advance

/-- `Fx33` LD B, Vx (R303): hundreds at `I`, tens at `I + 1`, ones at `I + 2` (D21). -/
def execLdBVx (x : RegIx) (s : State) : Answer :=
  let digits := bcdDigits (s.reg x)
  .next
    (((s.writeByte (s.effective 0) digits.1).writeByte (s.effective 1) digits.2.1).writeByte (s.effective 2)
      digits.2.2).advance

/-- `Fx55` LD [I], Vx (R304): `V[0]` to `V[x]` inclusive (D14). -/
def execLdMemVx (x : RegIx) (s : State) : Answer := .next ((s.storeRegs (x.toNat + 1)).bumpI x).advance

/-- `Fx65` LD Vx, [I] (R305): `V[0]` to `V[x]` inclusive (D14). -/
def execLdVxMem (x : RegIx) (s : State) : Answer := .next ((s.loadRegs (x.toNat + 1)).bumpI x).advance

end Sys2Proof.Machine
end

