-- ==== Sys2Proof/Machine/KeyInput.lean ====
section
/-! DEFINITION. The key instructions and the blocking key wait (44_timers_input.md, sections 2 and 3). -/

namespace Sys2Proof.Machine

/-- `Ex9E` SKP Vx (R403, R406). -/
def execSkp (x : RegIx) (s : State) : Answer :=
  match s.nibbleOperand (s.reg x) with
  | none => s.raise .outOfSpec (encode (.skp x))
  | some k => .next (s.skipIf (s.key k.toFin))

/-- `ExA1` SKNP Vx (R404, R406). -/
def execSknp (x : RegIx) (s : State) : Answer :=
  match s.nibbleOperand (s.reg x) with
  | none => s.raise .outOfSpec (encode (.sknp x))
  | some k => .next (s.skipIf (!s.key k.toFin))

/-- The wait is satisfied by key `k`: `V[x] <- k`, and the instruction retires (R410, R420). -/
def State.takeKey (s : State) (x : RegIx) (k : Nibble) : State := (s.setReg x (k.setWidth 8)).advance

/-- The wait goes on: `WAIT = Some(x)`, `pc` stays (R410, R420). -/
def State.blockOn (s : State) (x : RegIx) : State := s.rememberKeys.setWait (some x)

/-- `Fx0A` LD Vx, K (R410): the first execution. Under `level` a pressed key satisfies it at once; otherwise it blocks.
Both are next states: the outcome `Waiting` is read off `WAIT` (log 9). -/
def execLdVxK (x : RegIx) (s : State) : Answer :=
  .next
    (match lowestKey s.firstCandidate with
    | some k => s.takeKey x k
    | none => s.blockOn x)

/-- `WaitStep(x, keys)` (R420): no fetch and no decode, only the test of the trigger. -/
def waitStep (x : RegIx) (s : State) : Answer :=
  .next
    (match lowestKey s.waitCandidate with
    | some k => (s.takeKey x k).setWait none
    | none => s.rememberKeys)

end Sys2Proof.Machine
end

