-- ==== Sys2Proof/Machine/Timers.lean ====
section
/-! DEFINITION. The timer instructions and the tick (44_timers_input.md, sections 1 and 4). -/

namespace Sys2Proof.Machine

/-- `Fx07` LD Vx, DT (R400). -/
def execLdVxDt (x : RegIx) (s : State) : Answer := .next (s.setReg x s.dt).advance

/-- `Fx15` LD DT, Vx (R401). -/
def execLdDtVx (x : RegIx) (s : State) : Answer := .next (s.setDt (s.reg x)).advance

/-- `Fx18` LD ST, Vx (R402). -/
def execLdStVx (x : RegIx) (s : State) : Answer := .next (s.setSt (s.reg x)).advance

/-- A timer after `n` ticks: each takes 1 off while it is nonzero (R430). A timer at 0 stays there whatever `n` is. -/
def timerAfter (n : Nat) (t : Byte) : Byte := if t = 0x00#8 then 0x00#8 else BitVec.ofNat 8 (t.toNat - n)

/-- `n` calls of `tick()` (R430). -/
def State.ticks (n : Nat) (s : State) : State := (s.setDt (timerAfter n s.dt)).setSt (timerAfter n s.st)

/-- `tick()` (R430). -/
def State.tick (s : State) : State := s.ticks 1

/-- `sound_active()`: what the host reads of the sound timer (R432). -/
def State.soundActive (s : State) : Bool := s.st != 0x00#8

end Sys2Proof.Machine
end

