-- ==== Sys2Proof/Machine/Turn.lean ====
section
/-! DEFINITION. What the host does before a step: it ticks some number of times and supplies the key snapshot and the
random draw (R8, R405, R431). Written out in `State.turns`, or free (log 4, 5, 6). -/

namespace Sys2Proof.Machine

/-- The host's next turn: the first of `turns`, or, when none is written out, the free values of its number. -/
def State.nextTurn (s : State) : HostTurn :=
  match s.turns with
  | t :: _ => t
  | [] => { ticks := Config.freeTicks s.turnsTaken, keys := Config.freeKeys s.turnsTaken, rnd := Config.freeRandom s.turnsTaken }

/-- The snapshot and the draw of one step, latched for its duration (R8, R405). -/
def State.latch (s : State) (ks : Keys) (r : Byte) : State := { s with keys := ks, rnd := r }

/-- The host's next turn is taken off the list and counted. -/
def State.dropTurn (s : State) : State := { s with turns := s.turns.tail, turnsTaken := s.turnsTaken + 1 }

/-- The host takes its next turn: its ticks, then the inputs of the step. -/
def State.beginTurn (s : State) : State :=
  ((s.dropTurn.ticks s.nextTurn.ticks).latch s.nextTurn.keys s.nextTurn.rnd)

end Sys2Proof.Machine
end

