-- ==== Sys2Proof/Machine/Cycle.lean ====
section
/-! DEFINITION. The instruction cycle (R170), on a state whose inputs are latched. -/

namespace Sys2Proof.Machine

/-- A word that decodes to nothing raises UnknownOpcode (R162, R451). -/
def execute (op : Word) (s : State) : Answer :=
  match decodeWord op with
  | none => s.raise .unknownOpcode op
  | some i => exec i s

/-- `step(keys, rnd)` of R170, the inputs being `s.keys` and `s.rnd`: a wait step while `WAIT = Some(x)`, else fetch, decode
and execute. The order of the tests is that of R455. -/
def cycle (s : State) : Answer :=
  match s.wait with
  | some x => waitStep x s
  | none => execute s.fetchPc s

/-- The host takes its turn, then the core makes one step. -/
def runTurn (s : State) : Answer := cycle s.beginTurn

/-- `s` with the opcode `op` where the next step fetches, and not waiting, so that the next step does fetch (log 11). -/
def State.fetchNext (s : State) (op : Word) : State := (s.placeWord s.pc.toNat op).setWait none

end Sys2Proof.Machine
end

