-- ==== Sys2Proof/Machine/Step.lean ====
section
/-! DEFINITION. One step of the machine, and the placing of an instruction where the next step fetches it. -/

namespace Sys2Proof.Machine

/-- One step: the host's turn (`State.beginTurn`), then the instruction cycle (`cycle`). -/
def step (s : State) : Host.Outcome State Fault Refusal := runTurn s

/-- `s` with the instruction whose bits are `w`, of which the table gives `nbits`, where `step` fetches next; the rest of
the word is 0. A machine that waits for a key fetches nothing, so the wait is ended (log 11). -/
def State.withFetchWord (s : State) (nbits w : Nat) : State := s.fetchNext (BitVec.ofNat 16 (w % 2 ^ nbits))

end Sys2Proof.Machine
end

