-- ==== Sys2Proof/Machine/HostOps.lean ====
section
/-! DEFINITION. The host's interface (R461): construction, and the moves of a session with one machine. -/

namespace Sys2Proof.Machine

/-! ### Construction (R500 to R502) -/

/-- Why construction fails: no machine exists then. -/
inductive ConstructError where
  /-- more than 3584 bytes (R502) -/
  | romTooLarge
  /-- `FONT_BASE + 80 > 0x200`, a configuration R7 does not allow (log 14) -/
  | fontMisplaced
  deriving DecidableEq, Repr

/-- The machine of R68 under a configuration, before the ROM is loaded. -/
def State.blank (c : Config) : State := { State.reset with cfg := c }

/-- `construct(rom, config, rng)` (R501). The random generator is an input of each step (R8). -/
def construct (rom : List Byte) (c : Config) : Except ConstructError State :=
  if romFits rom = false then .error .romTooLarge
  else if c.wellFormed = false then .error .fontMisplaced
  else .ok ((State.blank c).writeBytes 0x200 rom)

/-! ### Observations (R352, R432) -/

/-- `snapshot()`: the 2048 pixels, row-major (R352). -/
def State.snapshot (s : State) : List Bool :=
  (List.range 32).flatMap fun py => (List.range 64).map fun px => Display.pix s.disp px py

/-! ### A session (R450, R453, R454, R462) -/

/-- The outcome of a step (R450). -/
inductive StepOutcome where
  | retired
  | waiting
  | fault (f : Fault)
  deriving DecidableEq, Repr

/-- `step(keys, rnd)` of R170 on a machine. -/
def coreStep (ks : Keys) (r : Byte) (s : State) : Answer := cycle (s.latch ks r)

/-- The outcome of a step that did not fault: it is blocked exactly when it leaves `WAIT = Some(x)` (R450; log 9). -/
def State.stepOutcome (t : State) : StepOutcome := if t.wait.isSome then .waiting else .retired

/-- A machine in the host's hands, the outcome of its most recent step, and the mark of its first fault, which nothing
clears (R454, D6; log 17). -/
structure Session where
  machine : State
  last : Option StepOutcome
  faultMark : Option Fault
  deriving DecidableEq, Repr

/-- The operations of R461 on a constructed machine. -/
inductive HostOp where
  | step (keys : Keys) (rnd : Byte)
  | tick
  | snapshot
  | soundActive
  | skip
  | discard
  deriving DecidableEq, Repr

/-- What becomes of the session. -/
inductive HostResult where
  /-- it goes on -/
  | session (σ : Session)
  /-- the host has discarded the machine (R461) -/
  | ended
  /-- the operation is not defined here (R462) -/
  | notDefined
  deriving DecidableEq, Repr

/-- A step of the session: after a fault the machine is as it was (R452), and the first fault is marked. -/
def Session.step (ks : Keys) (r : Byte) (σ : Session) : HostResult :=
  match coreStep ks r σ.machine with
  | .next t => .session { σ with machine := t, last := some t.stepOutcome }
  | .fault f => .session { σ with last := some (.fault f), faultMark := some (σ.faultMark.getD f) }
  | .refused _ => .notDefined

/-- `skip()`: defined when the most recent step returned UnknownOpcode or OutOfSpec; `pc <- pc + 2` (R462, D7). -/
def Session.skip (σ : Session) : HostResult :=
  match σ.last with
  | some (.fault f) => if f.skippable then .session { σ with machine := σ.machine.advance } else .notDefined
  | _ => .notDefined

/-- One operation of the host. -/
def Session.move (op : HostOp) (σ : Session) : HostResult :=
  match op with
  | .step ks r => σ.step ks r
  | .tick => .session { σ with machine := σ.machine.tick }
  | .snapshot => .session σ
  | .soundActive => .session σ
  | .skip => σ.skip
  | .discard => .ended

/-- A sequence of operations, up to the first that ends the session or is not defined. -/
def Session.run : List HostOp → Session → HostResult
  | [], σ => .session σ
  | op :: rest, σ =>
    match σ.move op with
    | .session τ => Session.run rest τ
    | r => r

/-- A machine just constructed. -/
def Session.start (s : State) : Session := { machine := s, last := none, faultMark := none }

end Sys2Proof.Machine
end

