-- ==== Sys2Proof/Safety.lean ====
section
/-! DEFINITION. What statements say of a state: the invariant of R67, the end of a run (R513), a fault-free session (R454),
and what "everything else unchanged" means. -/

namespace Sys2Proof.Safety

open Sys2Proof.Machine

/-- The invariant of R67, with the canonical form of memory, which is the model's (log 10): `I`, `pc` and every stack entry below 0x1000, at most 16
entries, and, while `WAIT = Some(x)`, the blocked `Fx0A` still at `pc`. -/
structure Inv (s : State) : Prop where
  memory : Memory.wf (constructedByte s.cfg) s.mem = true
  index : s.i.toNat < 0x1000
  pc : s.pc.toNat < 0x1000
  depth : s.depth ≤ stackDepth
  entries : ∀ a ∈ s.stack, a.toNat < 0x1000
  blocked : ∀ x, s.wait = some x → s.fetchPc = encode (.ldVxK x)

/-- A program has stopped: `WAIT = None` and a jump to itself at `pc` (R513, D30), a convention and no property of the core. -/
def hasStopped (s : State) : Prop := s.wait = none ∧ s.fetchPc = 0x1000#16 ||| s.pc

/-- The invariant of a session: that of its machine; WAIT is pending exactly when the most recent step was Waiting (R420, R450,
R462); after a fault the session is marked (R454; log 17). -/
structure SessionInv (σ : Session) : Prop where
  machine : Inv σ.machine
  waiting : σ.last = some .waiting ↔ σ.machine.wait.isSome = true
  marked : ∀ f, σ.last = some (.fault f) → σ.faultMark.isSome = true

/-- A session in which no step has faulted (R454): the only kind about which a run proves anything. -/
def faultFree (σ : Session) : Prop := σ.faultMark = none

/-- The two states give every byte of memory the same value. -/
def sameBytes (s t : State) : Prop := ∀ a, t.readByte a = s.readByte a

/-- Every register outside `dest` is unchanged. -/
def regsKept (s t : State) (dest : RegIx → Prop) : Prop := ∀ r, ¬ dest r → t.reg r = s.reg r

/-- The two states show the same display. -/
def sameDisplay (s t : State) : Prop := ∀ px py, Display.pix t.disp px py = Display.pix s.disp px py

/-- No register at all is a destination. -/
def noRegister : RegIx → Prop := fun _ => False

/-- The timers are unchanged. -/
structure TimersKept (s t : State) : Prop where
  dt : t.dt = s.dt
  st : t.st = s.st

/-- The wait state is unchanged. -/
structure WaitKept (s t : State) : Prop where
  wait : t.wait = s.wait
  waitPrev : t.waitPrev = s.waitPrev

/-- What no instruction touches is unchanged: the step's inputs, the configuration, the host's coming turns. -/
structure InputsKept (s t : State) : Prop where
  keys : t.keys = s.keys
  rnd : t.rnd = s.rnd
  cfg : t.cfg = s.cfg
  turns : t.turns = s.turns
  turnsTaken : t.turnsTaken = s.turnsTaken

/-- Everything but the general registers, `I`, `pc` and memory is unchanged. -/
structure RestKept (s t : State) : Prop where
  stack : t.stack = s.stack
  timers : TimersKept s t
  display : sameDisplay s t
  waiting : WaitKept s t
  inputs : InputsKept s t

/-- Everything but `pc` and the registers in `dest` is unchanged: the frame of an instruction that only writes registers. -/
structure RegistersOnly (s t : State) (dest : RegIx → Prop) : Prop where
  regs : regsKept s t dest
  index : t.i = s.i
  bytes : sameBytes s t
  rest : RestKept s t

/-- Everything but `pc` and `I` is unchanged. -/
structure IndexOnly (s t : State) : Prop where
  regs : regsKept s t noRegister
  bytes : sameBytes s t
  rest : RestKept s t

/-- Everything but the stack and `pc` is unchanged. -/
structure StackOnly (s t : State) : Prop where
  regs : regsKept s t noRegister
  index : t.i = s.i
  bytes : sameBytes s t
  timers : TimersKept s t
  display : sameDisplay s t
  waiting : WaitKept s t
  inputs : InputsKept s t

/-- `pc` after PC advances by 2 (R172). -/
def nextPc (s : State) : Nat := (s.pc.toNat + 2) % 4096

/-- `pc` after a skip whose condition is `c` (R173). -/
def skipPc (s : State) (c : Prop) [Decidable c] : Nat := (s.pc.toNat + if c then 4 else 2) % 4096

/-- The value of `VF` for a condition: 1 or 0. -/
def flagValue (c : Prop) [Decidable c] : Byte := if c then 0x01#8 else 0x00#8

/-- The `k`-th general register. -/
def nthReg (k : Nat) : RegIx := BitVec.ofNat 4 k

/-- The sprite of `n` rows at `I`, drawn at `(x0, y0)`, has a 1 bit over the pixel `(px, py)`: row `r`, column `c` of the
sprite, whose bit is bit `7 - c` of its byte, falls on it with both coordinates wrapped (R353, R354). -/
def spriteCovers (s : State) (x0 y0 n px py : Nat) : Prop :=
  ∃ r < n, ∃ c < 8,
    (x0 + c) % 64 = px ∧ (y0 + r) % 32 = py ∧ (s.readByte (s.effective r)).getLsbD (7 - c) = true

/-- `f` on the next state of an answer; a fault or a refusal stays. -/
def mapNext (f : State → State) : Answer → Answer
  | .next t => .next (f t)
  | .fault r => .fault r
  | .refused r => .refused r

end Sys2Proof.Safety
end

