-- ==== Sys2Proof/Certificates/Slice0/Obligations.lean ====
section
/-! DEFINITION. The statements for the provers, each one a claim about every state (R50) unless it names a configuration.
A rule or clause the spec marks as its own decision (D<n>), derivation or general knowledge is named where a statement rests on it. -/

open Sys2Proof Sys2Proof.Machine Sys2Proof.Safety

/-! ### Encoding (30_encoding.md) -/

/-- Every instruction decodes back from its own word, and from its own two bytes whatever follows (30_encoding.md, sections 1
and 2; the strictness of the patterns is decision D2). -/
def Obligations.DecodeOfEncodeIsTheInstruction : Prop :=
  ∀ i : Instr, i.wellFormed = true →
    decodeWord (encode i) = some i ∧ ∀ rest : List Byte, decode (encodeBytes i ++ rest) = .ok (i, rest)

/-- A word that decodes to an instruction is that instruction's only encoding (30_encoding.md, sections 1 and 2; D2). -/
def Obligations.EncodeOfDecodeIsTheWord : Prop :=
  ∀ (op : Word) (i : Instr), decodeWord op = some i → encode i = op

/-- The case decoder accepts a word exactly when a row of the mask/match table does, answers an instruction of that row, and
no two of the 34 rows accept one word (30_encoding.md, section 2; D2). -/
def Obligations.DecoderIsTheMaskMatchTable : Prop :=
  opcodeTable.length = 34 ∧
  ∀ op : Word,
    ((decodeWord op).isSome = opcodeTable.any fun r => r.accepts op) ∧
    (∀ i, decodeWord op = some i → (rowOf i).accepts op = true) ∧
    (opcodeTable.filter fun r => r.accepts op).length ≤ 1

/-- The words that are no instruction, family by family, every `0nnn` but 0x00E0 and 0x00EE among them (30_encoding.md,
section 3; D2). -/
def Obligations.IllegalWordsByFamily : Prop :=
  ∀ op : Word,
    decodeWord op = none ↔
      (fieldH op = 0x0#4 ∧ op ≠ 0x00E0#16 ∧ op ≠ 0x00EE#16) ∨
      (fieldH op = 0x5#4 ∧ fieldN op ≠ 0x0#4) ∨
      (fieldH op = 0x8#4 ∧ (8 ≤ (fieldN op).toNat ∧ fieldN op ≠ 0xE#4)) ∨
      (fieldH op = 0x9#4 ∧ fieldN op ≠ 0x0#4) ∨
      (fieldH op = 0xE#4 ∧ fieldKK op ≠ 0x9E#8 ∧ fieldKK op ≠ 0xA1#8) ∨
      (fieldH op = 0xF#4 ∧
        fieldKK op ∉ [0x07#8, 0x0A#8, 0x15#8, 0x18#8, 0x1E#8, 0x29#8, 0x33#8, 0x55#8, 0x65#8])

/-- One word of each format, written out from 30_encoding.md sections 1 and 2, decodes to its instruction, and 0x0123 to none. That
0x8F15 is SUB rests on the sub-selectors by list order (41_alu.md section 3; log 15); that 0x0123, as every `0nnn` but two, is no
instruction is the spec's decision D2 (30_encoding.md section 3). -/
def Obligations.SampleWordsDecode : Prop :=
  decodeWord 0x00EE#16 = some .ret ∧
  decodeWord 0x1234#16 = some (.jp 0x234#12) ∧
  decodeWord 0x73F0#16 = some (.addImm 0x3#4 0xF0#8) ∧
  decodeWord 0x8F15#16 = some (.subReg 0xF#4 0x1#4) ∧
  decodeWord 0xD015#16 = some (.drw 0x0#4 0x1#4 0x5#4) ∧
  decodeWord 0xF265#16 = some (.ldVxMem 0x2#4) ∧
  decodeWord 0x0123#16 = none

/-! ### Memory and the instruction cycle (20_memory.md, 30_encoding.md) -/

/-- R101: every address is taken modulo 4096 by the read, the write and the fetch of two bytes, high byte first. -/
def Obligations.MemoryAddressesWrap : Prop :=
  ∀ (s : State) (a c : Nat) (b : Byte),
    s.readByte a = s.readByte (a % 4096) ∧
    (s.writeByte a b).readByte c = (if c % 4096 = a % 4096 then b else s.readByte c) ∧
    (s.fetch a).toNat = (s.readByte a).toNat * 256 + (s.readByte (a + 1)).toNat ∧
    (s.fetch 0xFFF).toNat = (s.readByte 0xFFF).toNat * 256 + (s.readByte 0x000).toNat

/-- A step is the host's turn and then the instruction cycle: when, after the turn, no wait is pending and the bytes at `pc`
decode to a well-formed instruction, the step is `exec` of it on the state with the turn's inputs. The meaning itself moves
`pc` past the word; nothing is done after `exec` (30_encoding.md, section 5; D1, D27; log 6). -/
def Obligations.StepRunsTheDecodedInstruction : Prop :=
  ∀ (s : State) (i : Instr) (rest : List Byte),
    s.wait = none →
    decode [s.readByte s.pc.toNat, s.readByte (s.pc.toNat + 1)] = .ok (i, rest) →
    i.wellFormed = true →
    step s = exec i s.beginTurn

/-- A step whose bytes at `pc` are no instruction faults with UnknownOpcode, the word and its address (30_encoding.md, section
3, and 60_exceptions.md, section 1; D2, D5, D8). -/
def Obligations.StepOnAnIllegalWordFaults : Prop :=
  ∀ s : State,
    s.wait = none → decodeWord (s.fetch s.pc.toNat) = none →
    step s = .fault (.unknownOpcode (s.fetch s.pc.toNat) s.pc)

/-- What the host's turn before a step changes: the timers by its ticks, the latched snapshot and draw, and the model's own
count and list of turns; where no turn is written out its values are the free ones of the current count, about which nothing
is known (00_scope.md section 3 on free inputs, 44_timers_input.md section 4; D26, D27, D35; log 4, 5, 6). -/
def Obligations.HostTurnSetsOnlyInputsAndTimers : Prop :=
  ∀ s : State, ∃ turn : HostTurn,
    (∀ t ts, s.turns = t :: ts → turn = t) ∧
    (s.turns = [] →
      turn = { ticks := Config.freeTicks s.turnsTaken, keys := Config.freeKeys s.turnsTaken, rnd := Config.freeRandom s.turnsTaken }) ∧
    s.beginTurn =
      { s with
        dt := BitVec.ofNat 8 (s.dt.toNat - turn.ticks)
        st := BitVec.ofNat 8 (s.st.toNat - turn.ticks)
        keys := turn.keys
        rnd := turn.rnd
        turns := s.turns.tail
        turnsTaken := s.turnsTaken + 1 }

/-- No step of any state is refused: every word is an instruction with a meaning or faults as the spec says
(30_encoding.md, sections 3 and 5; D2). -/
def Obligations.NoStepIsRefused : Prop :=
  ∀ (s : State) (r : Refusal), step s ≠ .refused r

/-! ### Control transfer (40_control_flow.md) -/

/-- RET pops the top entry into `pc` with no further +2, which after a call is the address after that call; on an empty stack it
faults with StackUnderflow, 0x00EE and its address, and the session's machine is as it was (40_control_flow.md section 2). That a
call pushes A + 2 is derived there; that a fault changes nothing is the spec's decision D5; how the model shows a fault and keeps
the last outcome is its own choice (log 8, 17); an entry of 0x1000 or more, which no run stacks, is taken modulo 4096 (log 12). -/
def Obligations.RetPopsOrUnderflows : Prop :=
  encode .ret = 0x00EE#16 ∧ decodeWord 0x00EE#16 = some .ret ∧
  (∀ (s : State) (top : Word) (below : List Word), s.stack = top :: below →
    ∃ t, exec .ret s = .next t ∧ t.pc.toNat = top.toNat % 4096 ∧ t.stack = below ∧ StackOnly s t) ∧
  (∀ (s t : State) (nnn : Addr), exec (.call nnn) s = .next t →
    ∃ u, exec .ret t = .next u ∧ u.pc.toNat = (s.pc.toNat + 2) % 4096) ∧
  (∀ s : State, s.stack = [] → exec .ret s = .fault (.stackUnderflow 0x00EE#16 s.pc)) ∧
  (∀ (σ : Session) (ks : Keys) (r : Byte),
    σ.machine.wait = none → σ.machine.fetchPc = 0x00EE#16 → σ.machine.stack = [] →
    ∃ τ, σ.step ks r = .session τ ∧ τ.machine = σ.machine ∧
      τ.last = some (.fault (.stackUnderflow 0x00EE#16 σ.machine.pc)))

/-- R202: JP sets `pc` to `nnn`, odd or even, its own address or not, and changes nothing else. -/
def Obligations.JpSetsPc : Prop :=
  ∀ (s : State) (nnn : Addr),
    encode (.jp nnn) = 0x1#4 ++ nnn ∧ decodeWord (0x1#4 ++ nnn) = some (.jp nnn) ∧
    ∃ t, exec (.jp nnn) s = .next t ∧ t.pc.toNat = nnn.toNat ∧ RegistersOnly s t noRegister

/-- CALL with fewer than 16 entries pushes the wrapped address after the call and jumps; with 16 it faults with StackOverflow,
its word and address (40_control_flow.md section 2: that the pushed value is A + 2 is derived there; with more than 16, which
no run reaches, the model faults too, log 12). -/
def Obligations.CallPushesOrOverflows : Prop :=
  ∀ (s : State) (nnn : Addr),
    (s.depth < 16 →
      ∃ t, exec (.call nnn) s = .next t ∧ t.pc.toNat = nnn.toNat ∧
        (∃ ret, t.stack = ret :: s.stack ∧ ret.toNat = (s.pc.toNat + 2) % 4096) ∧ StackOnly s t) ∧
    (16 ≤ s.depth → exec (.call nnn) s = .fault (.stackOverflow (0x2#4 ++ nnn) s.pc))

/-- A call and then a return come back to the address after the call with the stack as before, whatever 12-bit address was
called (40_control_flow.md section 3, derived there). -/
def Obligations.CallThenReturnIsSymmetric : Prop :=
  ∀ (s : State) (nnn : Addr), s.depth < 16 →
    ∃ t u, exec (.call nnn) s = .next t ∧ exec .ret t = .next u ∧
      u = { s with pc := BitVec.ofNat 16 ((s.pc.toNat + 2) % 4096) }

/-- The four skips on registers: equal and not equal to a constant, equal and not equal to a register; 4 past the instruction
when the condition holds, else 2, wrapped (40_control_flow.md section 2, the pairing derived in 00_scope.md; D2, D3, D34). -/
def Obligations.RegisterSkipsMoveOnlyPc : Prop :=
  ∀ (s : State) (x y : RegIx) (kk : Byte),
    (∃ t, exec (.seImm x kk) s = .next t ∧ t.pc.toNat = skipPc s (s.reg x = kk) ∧ RegistersOnly s t noRegister) ∧
    (∃ t, exec (.sneImm x kk) s = .next t ∧ t.pc.toNat = skipPc s (s.reg x ≠ kk) ∧ RegistersOnly s t noRegister) ∧
    (∃ t, exec (.seReg x y) s = .next t ∧ t.pc.toNat = skipPc s (s.reg x = s.reg y) ∧ RegistersOnly s t noRegister) ∧
    (∃ t, exec (.sneReg x y) s = .next t ∧ t.pc.toNat = skipPc s (s.reg x ≠ s.reg y) ∧ RegistersOnly s t noRegister)

/-- JP V0 adds `V[0]`, never another register, to `nnn` modulo 4096 (40_control_flow.md section 2; D3). -/
def Obligations.JpV0AddsTheFirstRegister : Prop :=
  ∀ (s : State) (nnn : Addr),
    ∃ t, exec (.jpV0 nnn) s = .next t ∧ t.pc.toNat = (nnn.toNat + (s.reg 0x0#4).toNat) % 4096 ∧
      RegistersOnly s t noRegister

/-! ### Register loads and arithmetic (41_alu.md) -/

/-- R250: LD Vx, kk writes the constant to `V[x]`, `VF` like any other register, and nothing else but `pc`. -/
def Obligations.LoadConstantWritesOneRegister : Prop :=
  ∀ (s : State) (x : RegIx) (kk : Byte),
    encode (.ldImm x kk) = 0x6#4 ++ x ++ kk ∧ decodeWord (0x6#4 ++ x ++ kk) = some (.ldImm x kk) ∧
    ∃ t, exec (.ldImm x kk) s = .next t ∧ t.reg x = kk ∧ t.pc.toNat = nextPc s ∧ RegistersOnly s t (· = x)

/-- ADD Vx, kk adds modulo 256 and records no carry: `VF` is unchanged unless it is the destination (41_alu.md section 2; D11). -/
def Obligations.AddConstantRecordsNoCarry : Prop :=
  ∀ (s : State) (x : RegIx) (kk : Byte),
    ∃ t, exec (.addImm x kk) s = .next t ∧ (t.reg x).toNat = ((s.reg x).toNat + kk.toNat) % 256 ∧
      t.pc.toNat = nextPc s ∧ RegistersOnly s t (· = x)

/-- Adding a constant and then its negative, modulo 256, gives the register back and leaves everything but `pc` as it was
(95_test_vectors.md L1-1, 41_alu.md section 2; D11). -/
def Obligations.AddConstantRoundTrips : Prop :=
  ∀ (s : State) (x : RegIx) (kk : Byte),
    ∃ t u, exec (.addImm x kk) s = .next t ∧
      exec (.addImm x (BitVec.ofNat 8 (256 - kk.toNat))) t = .next u ∧
      u = { s with pc := BitVec.ofNat 16 ((s.pc.toNat + 4) % 4096) }

/-- Assign, OR, AND and XOR write only `V[x]`: `VF` is not reset by them (41_alu.md section 3; the sub-selectors 1, 2, 3 by
list order, D11). -/
def Obligations.AssignAndLogicWriteOnlyTheDestination : Prop :=
  ∀ (s : State) (x y : RegIx),
    (∃ t, exec (.ldReg x y) s = .next t ∧ t.reg x = s.reg y ∧ t.pc.toNat = nextPc s ∧ RegistersOnly s t (· = x)) ∧
    (∃ t, exec (.orReg x y) s = .next t ∧ t.reg x = s.reg x ||| s.reg y ∧ t.pc.toNat = nextPc s ∧
      RegistersOnly s t (· = x)) ∧
    (∃ t, exec (.andReg x y) s = .next t ∧ t.reg x = s.reg x &&& s.reg y ∧ t.pc.toNat = nextPc s ∧
      RegistersOnly s t (· = x)) ∧
    (∃ t, exec (.xorReg x y) s = .next t ∧ t.reg x = s.reg x ^^^ s.reg y ∧ t.pc.toNat = nextPc s ∧
      RegistersOnly s t (· = x))

/-- ADD Vx, Vy: the sum modulo 256 in `V[x]` and the carry in `VF`, the flag being what remains when `V[x]` is `VF` (41_alu.md
section 3; D9). -/
def Obligations.AddRegistersSetsCarry : Prop :=
  ∀ (s : State) (x y : RegIx),
    ∃ t, exec (.addReg x y) s = .next t ∧
      (x ≠ vf → (t.reg x).toNat = ((s.reg x).toNat + (s.reg y).toNat) % 256) ∧
      t.reg vf = flagValue (255 < (s.reg x).toNat + (s.reg y).toNat) ∧
      t.pc.toNat = nextPc s ∧ RegistersOnly s t (fun r => r = x ∨ r = vf)

/-- SUB and SUBN: the difference modulo 256 in `V[x]`, and in `VF` 1 exactly when the minuend is at least the subtrahend
(41_alu.md section 3; D9, D10). -/
def Obligations.SubtractionsSetNotBorrow : Prop :=
  ∀ (s : State) (x y : RegIx),
    (∃ t, exec (.subReg x y) s = .next t ∧
      (x ≠ vf → ((t.reg x).toNat : Int) = ((s.reg x).toNat - (s.reg y).toNat : Int) % 256) ∧
      t.reg vf = flagValue ((s.reg y).toNat ≤ (s.reg x).toNat) ∧
      t.pc.toNat = nextPc s ∧ RegistersOnly s t (fun r => r = x ∨ r = vf)) ∧
    (∃ t, exec (.subnReg x y) s = .next t ∧
      (x ≠ vf → ((t.reg x).toNat : Int) = ((s.reg y).toNat - (s.reg x).toNat : Int) % 256) ∧
      t.reg vf = flagValue ((s.reg x).toNat ≤ (s.reg y).toNat) ∧
      t.pc.toNat = nextPc s ∧ RegistersOnly s t (fun r => r = x ∨ r = vf))

/-- SHR and SHL shift `V[x]` or `V[y]`, as SHIFT_SOURCE says, by one into `V[x]`, and put the bit shifted out into `VF`
(41_alu.md section 3; D9, D12). -/
def Obligations.ShiftsByOneSetTheBitShiftedOut : Prop :=
  ∀ (s : State) (x y : RegIx) (src : Byte),
    src = (if s.cfg.shiftSource = .vx then s.reg x else s.reg y) →
    (∃ t, exec (.shr x y) s = .next t ∧ (x ≠ vf → (t.reg x).toNat = src.toNat / 2) ∧
      (t.reg vf).toNat = src.toNat % 2 ∧ t.pc.toNat = nextPc s ∧ RegistersOnly s t (fun r => r = x ∨ r = vf)) ∧
    (∃ t, exec (.shl x y) s = .next t ∧ (x ≠ vf → (t.reg x).toNat = src.toNat * 2 % 256) ∧
      (t.reg vf).toNat = src.toNat / 128 ∧ t.pc.toNat = nextPc s ∧ RegistersOnly s t (fun r => r = x ∨ r = vf))

/-- RND puts the step's draw under the mask into `V[x]`, so 0 whatever the draw under the mask 0 (41_alu.md section 4; the draw
is a free input of the step, D27). -/
def Obligations.RandomIsTheDrawUnderTheMask : Prop :=
  ∀ (s : State) (x : RegIx) (kk : Byte),
    ∃ t, exec (.rnd x kk) s = .next t ∧ t.reg x = s.rnd &&& kk ∧ (kk = 0x00#8 → t.reg x = 0x00#8) ∧
      t.pc.toNat = nextPc s ∧ RegistersOnly s t (· = x)

/-! ### Index register, loads and stores (42_index_memory.md) -/

/-- R300: LD I, nnn sets `I` to the address, its upper 4 bits 0, and changes nothing else but `pc`. -/
def Obligations.LoadIndexSetsI : Prop :=
  ∀ (s : State) (nnn : Addr),
    encode (.ldI nnn) = 0xA#4 ++ nnn ∧ decodeWord (0xA#4 ++ nnn) = some (.ldI nnn) ∧
    ∃ t, exec (.ldI nnn) s = .next t ∧ t.i.toNat = nnn.toNat ∧ t.i.toNat < 0x1000 ∧ t.pc.toNat = nextPc s ∧ IndexOnly s t

/-- ADD I, Vx adds modulo 4096 with no flag: `VF` too is unchanged (42_index_memory.md section 2; D4). -/
def Obligations.AddToIndexWrapsWithoutFlag : Prop :=
  ∀ (s : State) (x : RegIx),
    ∃ t, exec (.addIVx x) s = .next t ∧ t.i.toNat = (s.i.toNat + (s.reg x).toNat) % 4096 ∧ t.pc.toNat = nextPc s ∧
      IndexOnly s t

/-- LD F, Vx points `I` at the glyph of the digit `V[x]`; above 0xF it faults with OutOfSpec under `refuse` and uses the low
nibble under `mask` (42_index_memory.md section 2; D16, D17, D18). -/
def Obligations.LoadFontPointsAtTheGlyph : Prop :=
  ∀ (s : State) (x : RegIx),
    ((s.reg x).toNat ≤ 0xF ∨ s.cfg.rangePolicy = .mask →
      ∃ t, exec (.ldFVx x) s = .next t ∧
        t.i.toNat = (s.cfg.fontBase.toNat + 5 * ((s.reg x).toNat % 16)) % 4096 ∧ t.pc.toNat = nextPc s ∧ IndexOnly s t) ∧
    (0xF < (s.reg x).toNat ∧ s.cfg.rangePolicy = .refuse →
      exec (.ldFVx x) s = .fault (.outOfSpec (0xF#4 ++ x ++ 0x29#8) s.pc))

/-- LD B, Vx stores the hundreds, tens and ones of `V[x]` at `I`, `I + 1`, `I + 2`, each wrapped, and changes no other byte and
nothing else but `pc` (42_index_memory.md section 2; the order of the digits is D21, general knowledge). -/
def Obligations.StoreDecimalWritesThreeDigits : Prop :=
  ∀ (s : State) (x : RegIx),
    ∃ t, exec (.ldBVx x) s = .next t ∧
      (t.readByte (s.effective 0)).toNat = (s.reg x).toNat / 100 ∧
      (t.readByte (s.effective 1)).toNat = (s.reg x).toNat / 10 % 10 ∧
      (t.readByte (s.effective 2)).toNat = (s.reg x).toNat % 10 ∧
      (∀ a, (∀ k < 3, a % 4096 ≠ s.effective k % 4096) → t.readByte a = s.readByte a) ∧
      regsKept s t noRegister ∧ t.i = s.i ∧ t.pc.toNat = nextPc s ∧ RestKept s t

/-- LD [I], Vx stores `V[0]` to `V[x]` inclusive at `I` upwards, each address wrapped; no other byte changes; `I` stays or grows
by `x + 1` as LOADSTORE_I_INCREMENT says (42_index_memory.md section 2; D13, D14). -/
def Obligations.StoreRegistersWritesInclusiveRange : Prop :=
  ∀ (s : State) (x : RegIx),
    ∃ t, exec (.ldMemVx x) s = .next t ∧
      (∀ k ≤ x.toNat, t.readByte (s.effective k) = s.reg (nthReg k)) ∧
      (∀ a, (∀ k ≤ x.toNat, a % 4096 ≠ s.effective k % 4096) → t.readByte a = s.readByte a) ∧
      (s.cfg.loadStoreIncrement = .unchanged → t.i = s.i) ∧
      (s.cfg.loadStoreIncrement = .xPlusOne → t.i.toNat = (s.i.toNat + x.toNat + 1) % 4096) ∧
      regsKept s t noRegister ∧ t.pc.toNat = nextPc s ∧ RestKept s t

/-- LD Vx, [I] loads `V[0]` to `V[x]` inclusive from `I` upwards, each address wrapped; the registers above `V[x]` and memory are
unchanged; `I` stays or grows by `x + 1` (42_index_memory.md section 2; D13, D14). -/
def Obligations.LoadRegistersReadsInclusiveRange : Prop :=
  ∀ (s : State) (x : RegIx),
    ∃ t, exec (.ldVxMem x) s = .next t ∧
      (∀ k ≤ x.toNat, t.reg (nthReg k) = s.readByte (s.effective k)) ∧
      (s.cfg.loadStoreIncrement = .unchanged → t.i = s.i) ∧
      (s.cfg.loadStoreIncrement = .xPlusOne → t.i.toNat = (s.i.toNat + x.toNat + 1) % 4096) ∧
      regsKept s t (fun r => r.toNat ≤ x.toNat) ∧ sameBytes s t ∧ t.pc.toNat = nextPc s ∧ RestKept s t

/-- What LD [I], Vx stores, LD Vx, [I] brings back into `V[0]` to `V[x]`, from any later state with that memory and that `I`,
whatever its registers hold meanwhile (42_index_memory.md section 2; D13, D14). -/
def Obligations.LoadBringsBackWhatStoreSaved : Prop :=
  ∀ (s t u w : State) (x : RegIx),
    exec (.ldMemVx x) s = .next t → sameBytes t u → u.i = s.i → exec (.ldVxMem x) u = .next w →
    ∀ k ≤ x.toNat, w.reg (nthReg k) = s.reg (nthReg k)

/-- A byte stored is seen by the very next fetch, whatever word it is part of: two neighbouring bytes a store wrote are fetched as
one big-endian word, and so are the first and the last byte with the unstored neighbour before and after them; LD [I], Vx with
`x = 0` has these two words only (20_memory.md section 6, derived there; D14, D21). -/
def Obligations.StoredBytesAreFetchedNext : Prop :=
  (∀ (s t : State) (x : RegIx),
    exec (.ldMemVx x) s = .next t →
    (∀ a, (a + 1) % 4096 = s.effective 0 % 4096 → t.fetch a = s.readByte a ++ s.reg 0x0#4) ∧
    (∀ k < x.toNat, t.fetch (s.effective k) = s.reg (nthReg k) ++ s.reg (nthReg (k + 1))) ∧
    t.fetch (s.effective x.toNat) = s.reg x ++ s.readByte (s.effective (x.toNat + 1))) ∧
  (∀ (s t : State) (x : RegIx),
    exec (.ldBVx x) s = .next t →
    (∀ a, (a + 1) % 4096 = s.effective 0 % 4096 →
      (t.fetch a).toNat = (s.readByte a).toNat * 256 + (s.reg x).toNat / 100) ∧
    (t.fetch (s.effective 0)).toNat = (s.reg x).toNat / 100 * 256 + (s.reg x).toNat / 10 % 10 ∧
    (t.fetch (s.effective 1)).toNat = (s.reg x).toNat / 10 % 10 * 256 + (s.reg x).toNat % 10 ∧
    (t.fetch (s.effective 2)).toNat = (s.reg x).toNat % 10 * 256 + (s.readByte (s.effective 3)).toNat)

/-! ### Display (43_display.md) -/

/-- R350: CLS sets every one of the 2048 pixels to 0, writes no register, `VF` included, and changes nothing else but `pc`. -/
def Obligations.ClearSetsEveryPixelToZero : Prop :=
  encode .cls = 0x00E0#16 ∧ decodeWord 0x00E0#16 = some .cls ∧
  ∀ s : State,
    ∃ t, exec .cls s = .next t ∧ (∀ px py, Display.pix t.disp px py = false) ∧ t.pc.toNat = nextPc s ∧
      regsKept s t noRegister ∧ t.i = s.i ∧ sameBytes s t ∧ t.stack = s.stack ∧ TimersKept s t ∧ WaitKept s t ∧
      InputsKept s t

/-- DRW: a pixel changes exactly when the wrapped sprite has a 1 bit over it, and `VF` is 1 exactly when such a pixel was set;
with `n = 0` no pixel changes and `VF` is 0 (43_display.md sections 1 and 2; D9, D20, D22, D23). -/
def Obligations.DrawXorsTheSpriteAndReportsCollision : Prop :=
  ∀ (s : State) (x y : RegIx) (n : Nibble),
    ∃ t, exec (.drw x y n) s = .next t ∧
      (∀ px < 64, ∀ py < 32,
        (Display.pix t.disp px py ≠ Display.pix s.disp px py ↔
          spriteCovers s (s.reg x).toNat (s.reg y).toNat n.toNat px py)) ∧
      (t.reg vf = 0x01#8 ∨ t.reg vf = 0x00#8) ∧
      (t.reg vf = 0x01#8 ↔
        ∃ px < 64, ∃ py < 32, Display.pix s.disp px py = true ∧
          spriteCovers s (s.reg x).toNat (s.reg y).toNat n.toNat px py) ∧
      t.pc.toNat = nextPc s ∧ regsKept s t (· = vf) ∧ t.i = s.i ∧ sameBytes s t ∧ t.stack = s.stack ∧
      TimersKept s t ∧ WaitKept s t ∧ InputsKept s t

/-- XOR self-inverse: the same draw again, with the display of the first and the same coordinates, `I` and memory, restores the
display before the first, and its `VF` is 1 exactly when the first turned a pixel on (43_display.md section 3, derived there; D9). -/
def Obligations.DrawingTwiceRestoresTheDisplay : Prop :=
  ∀ (s t u w : State) (x y : RegIx) (n : Nibble),
    exec (.drw x y n) s = .next t →
    sameDisplay t u → u.reg x = s.reg x → u.reg y = s.reg y → u.i = s.i → sameBytes s u →
    exec (.drw x y n) u = .next w →
    sameDisplay s w ∧
    (w.reg vf = 0x01#8 ↔
      ∃ px < 64, ∃ py < 32, Display.pix s.disp px py = false ∧ Display.pix t.disp px py = true)

/-- `snapshot()` gives the 2048 pixels row by row and leaves the session as it is (43_display.md section 1; D25). -/
def Obligations.SnapshotIsRowMajor : Prop :=
  ∀ σ : Session,
    σ.machine.snapshot.length = 2048 ∧
    (∀ px < 64, ∀ py < 32, σ.machine.snapshot[64 * py + px]? = some (Display.pix σ.machine.disp px py)) ∧
    σ.move .snapshot = .session σ

/-! ### Timers, keys and the key wait (44_timers_input.md) -/

/-- The timer instructions: LD Vx, DT reads the delay timer; LD DT, Vx and LD ST, Vx set one timer each and leave the other
(44_timers_input.md section 1, the pairing derived in 00_scope.md). -/
def Obligations.TimerInstructionsMoveOneByte : Prop :=
  ∀ (s : State) (x : RegIx),
    (∃ t, exec (.ldVxDt x) s = .next t ∧ t.reg x = s.dt ∧ t.pc.toNat = nextPc s ∧ RegistersOnly s t (· = x)) ∧
    (∃ t, exec (.ldDtVx x) s = .next t ∧ t.dt = s.reg x ∧ t.st = s.st ∧ t.pc.toNat = nextPc s ∧
      regsKept s t noRegister ∧ t.i = s.i ∧ sameBytes s t ∧ t.stack = s.stack ∧ sameDisplay s t ∧ WaitKept s t ∧
      InputsKept s t) ∧
    (∃ t, exec (.ldStVx x) s = .next t ∧ t.st = s.reg x ∧ t.dt = s.dt ∧ t.pc.toNat = nextPc s ∧
      regsKept s t noRegister ∧ t.i = s.i ∧ sameBytes s t ∧ t.stack = s.stack ∧ sameDisplay s t ∧ WaitKept s t ∧
      InputsKept s t)

/-- R430: a tick takes 1 off each nonzero timer, leaves a zero timer at 0, changes nothing else, and as a move of the host is
defined in every session. -/
def Obligations.TickDecrementsNonzeroTimers : Prop :=
  ∀ σ : Session, ∃ τ,
    σ.move .tick = .session τ ∧
    (σ.machine.dt ≠ 0x00#8 → τ.machine.dt.toNat = σ.machine.dt.toNat - 1) ∧
    (σ.machine.dt = 0x00#8 → τ.machine.dt = 0x00#8) ∧
    (σ.machine.st ≠ 0x00#8 → τ.machine.st.toNat = σ.machine.st.toNat - 1) ∧
    (σ.machine.st = 0x00#8 → τ.machine.st = 0x00#8) ∧
    τ = { σ with machine := { σ.machine with dt := τ.machine.dt, st := τ.machine.st } }

/-- The ticks of one turn are that many single ticks: `n + 1` of them are `n` and one more (44_timers_input.md section 4; D26). -/
def Obligations.TicksAreSingleTicks : Prop :=
  ∀ (s : State) (n : Nat), s.ticks 0 = s ∧ s.ticks (n + 1) = (s.ticks n).tick

/-- R432: the host reads of the sound timer only whether it is nonzero, and reading changes no state. -/
def Obligations.SoundIsTheNonzeroSoundTimer : Prop :=
  ∀ σ : Session, (σ.machine.soundActive = true ↔ σ.machine.st ≠ 0x00#8) ∧ σ.move .soundActive = .session σ

/-- SKP and SKNP test the key `V[x]` of this step's snapshot; above 0xF they fault with OutOfSpec under `refuse` and use the
low nibble under `mask` (44_timers_input.md section 2; D16, D34, D35). -/
def Obligations.KeySkipsTestTheSnapshot : Prop :=
  ∀ (s : State) (x : RegIx),
    ((s.reg x).toNat ≤ 0xF ∨ s.cfg.rangePolicy = .mask →
      (∃ t, exec (.skp x) s = .next t ∧
        t.pc.toNat = skipPc s (s.keys[(s.reg x).toNat % 16]'(Nat.mod_lt _ (by omega)) = true) ∧
        RegistersOnly s t noRegister) ∧
      (∃ t, exec (.sknp x) s = .next t ∧
        t.pc.toNat = skipPc s (s.keys[(s.reg x).toNat % 16]'(Nat.mod_lt _ (by omega)) = false) ∧
        RegistersOnly s t noRegister)) ∧
    (0xF < (s.reg x).toNat ∧ s.cfg.rangePolicy = .refuse →
      exec (.skp x) s = .fault (.outOfSpec (0xE#4 ++ x ++ 0x9E#8) s.pc) ∧
      exec (.sknp x) s = .fault (.outOfSpec (0xE#4 ++ x ++ 0xA1#8) s.pc))

/-- The first execution of LD Vx, K. Under `level` with some key pressed it retires at once with the lowest pressed key in
`V[x]`; otherwise it blocks: `WAIT = Some(x)`, `pc` and every register as they were, and under `press_edge` the snapshot kept
(44_timers_input.md section 3; D15, D36). -/
def Obligations.KeyWaitTakesTheLowestKeyOrBlocks : Prop :=
  ∀ (s : State) (x : RegIx),
    (∀ k : Fin 16, s.cfg.keyTrigger = .level → s.keys[k] = true → (∀ j : Fin 16, j < k → s.keys[j] = false) →
      ∃ t, exec (.ldVxK x) s = .next t ∧ (t.reg x).toNat = k.val ∧ t.pc.toNat = nextPc s ∧ RegistersOnly s t (· = x)) ∧
    (s.cfg.keyTrigger = .pressEdge ∨ (∀ k : Fin 16, s.keys[k] = false) →
      ∃ t, exec (.ldVxK x) s = .next t ∧ t.wait = some x ∧ t.pc = s.pc ∧
        (s.cfg.keyTrigger = .pressEdge → t.waitPrev = s.keys) ∧
        (s.cfg.keyTrigger = .level → t.waitPrev = s.waitPrev) ∧
        regsKept s t noRegister ∧ t.i = s.i ∧ sameBytes s t ∧ t.stack = s.stack ∧ TimersKept s t ∧ sameDisplay s t ∧
        InputsKept s t)

/-- A step while `WAIT = Some(x)` fetches nothing. With a candidate key (pressed, and under `press_edge` not pressed in the
previous waiting snapshot) it stores the lowest one in `V[x]`, ends the wait and advances; with none it changes at most
`WAIT_PREV` (44_timers_input.md section 3; D15, D36). -/
def Obligations.WaitStepTestsOnlyTheTrigger : Prop :=
  ∀ (s : State) (x : RegIx) (ks : Keys) (r : Byte) (candidate : Fin 16 → Prop),
    s.wait = some x →
    (∀ k, candidate k ↔ ks[k] = true ∧ (s.cfg.keyTrigger = .pressEdge → s.waitPrev[k] = false)) →
    (∀ k, candidate k → (∀ j, j < k → ¬ candidate j) →
      ∃ t, coreStep ks r s = .next t ∧ (t.reg x).toNat = k.val ∧ t.wait = none ∧ t.pc.toNat = nextPc s ∧
        regsKept s t (· = x) ∧ t.i = s.i ∧ sameBytes s t ∧ t.stack = s.stack ∧ TimersKept s t ∧ sameDisplay s t ∧
        t.waitPrev = s.waitPrev ∧ t.cfg = s.cfg) ∧
    ((∀ k, ¬ candidate k) →
      coreStep ks r s =
        .next { s.latch ks r with waitPrev := if s.cfg.keyTrigger = .pressEdge then ks else s.waitPrev })

/-- A wait with no key ever pressed goes on for any number of steps: each is a real step with outcome Waiting, and registers,
memory and `pc` stay (44_timers_input.md section 3, derived there). -/
def Obligations.WaitWithoutKeysNeverEnds : Prop :=
  ∀ (n : Nat) (r : Byte) (σ : Session) (x : RegIx), σ.machine.wait = some x →
    ∃ τ, Session.run (List.replicate (n + 1) (.step noKeys r)) σ = .session τ ∧
      τ.last = some .waiting ∧ τ.faultMark = σ.faultMark ∧
      τ.machine.wait = some x ∧ τ.machine.pc = σ.machine.pc ∧ regsKept σ.machine τ.machine noRegister ∧
      sameBytes σ.machine τ.machine

/-! ### Whole-machine rules -/

/-- Who writes what: memory only the two stores, the display only CLS and DRW, the stack only CALL and RET, the timers only LD
DT and LD ST, the wait state only LD Vx, K, the index register only the five instructions that name it, and the inputs and the
configuration no instruction (10_state.md sections 3 to 10; D13). -/
def Obligations.EachComponentHasOnlyItsWriters : Prop :=
  ∀ (i : Instr) (s t : State), exec i s = .next t →
    ((∀ x, i ≠ .ldBVx x ∧ i ≠ .ldMemVx x) → sameBytes s t) ∧
    ((i ≠ .cls ∧ ∀ x y n, i ≠ .drw x y n) → sameDisplay s t) ∧
    ((i ≠ .ret ∧ ∀ nnn, i ≠ .call nnn) → t.stack = s.stack) ∧
    ((∀ x, i ≠ .ldDtVx x) → t.dt = s.dt) ∧
    ((∀ x, i ≠ .ldStVx x) → t.st = s.st) ∧
    ((∀ x, i ≠ .ldVxK x) → WaitKept s t) ∧
    ((∀ nnn x, i ≠ .ldI nnn ∧ i ≠ .addIVx x ∧ i ≠ .ldFVx x ∧ i ≠ .ldMemVx x ∧ i ≠ .ldVxMem x) → t.i = s.i) ∧
    InputsKept s t

/-- `VF` as a flag is written only by `8xy4` to `8xy7`, `8xyE` and `Dxyn`: every other instruction leaves it unchanged unless it
names `VF` as the register it writes (10_state.md section 2, 41_alu.md section 1; D11). -/
def Obligations.FlagHasOnlyItsWriters : Prop :=
  ∀ (i : Instr) (s t : State), exec i s = .next t →
    (∀ x y n, i ≠ .addReg x y ∧ i ≠ .subReg x y ∧ i ≠ .shr x y ∧ i ≠ .subnReg x y ∧ i ≠ .shl x y ∧ i ≠ .drw x y n) →
    (∀ y kk, i ≠ .ldImm vf kk ∧ i ≠ .addImm vf kk ∧ i ≠ .ldReg vf y ∧ i ≠ .orReg vf y ∧ i ≠ .andReg vf y ∧
      i ≠ .xorReg vf y ∧ i ≠ .rnd vf kk ∧ i ≠ .ldVxDt vf ∧ i ≠ .ldVxK vf ∧ i ≠ .ldVxMem vf) →
    t.reg vf = s.reg vf

/-- The key snapshot is read only by SKP, SKNP and LD Vx, K, and the random draw only by RND: two executions that differ only
in those inputs give the same answer but for the inputs themselves (30_encoding.md section 5; D27, D35). -/
def Obligations.InputsAreReadOnlyByTheirInstructions : Prop :=
  ∀ (i : Instr) (s : State) (ks ks' : Keys) (r r' : Byte),
    ((∀ x, i ≠ .skp x ∧ i ≠ .sknp x ∧ i ≠ .ldVxK x) →
      exec i (s.latch ks' r) = mapNext (fun t => t.latch ks' r) (exec i (s.latch ks r))) ∧
    ((∀ x kk, i ≠ .rnd x kk) →
      exec i (s.latch ks r') = mapNext (fun t => t.latch ks r') (exec i (s.latch ks r)))

/-- The faults of `exec` are exactly StackUnderflow of RET on an empty stack, StackOverflow of CALL on a full one, and OutOfSpec
of SKP, SKNP and LD F above 0xF under `refuse`, each with its own word and address: no memory access, arithmetic, target or
alignment faults (60_exceptions.md sections 1 and 2; D5, D8, D16; log 12, 13). -/
def Obligations.FaultsAreExactlyTheListed : Prop :=
  ∀ (i : Instr) (s : State) (f : Fault),
    exec i s = .fault f ↔
      (i = .ret ∧ s.stack = [] ∧ f = .stackUnderflow (encode i) s.pc) ∨
      (∃ nnn, i = .call nnn ∧ 16 ≤ s.depth ∧ f = .stackOverflow (encode i) s.pc) ∨
      (∃ x, (i = .skp x ∨ i = .sknp x ∨ i = .ldFVx x) ∧ 0xF < (s.reg x).toNat ∧ s.cfg.rangePolicy = .refuse ∧
        f = .outOfSpec (encode i) s.pc)

/-- The fault recorded in a step is that of the word at `pc` and of its address (60_exceptions.md section 1; D5, D8). -/
def Obligations.StepFaultRecordsTheWordAtPc : Prop :=
  ∀ (s : State) (f : Fault), step s = .fault f → f.opcode = s.fetchPc ∧ f.address = s.pc ∧ s.wait = none

/-! ### Faults and the host (60_exceptions.md) -/

/-- Nothing is latched by a fault: after any number of ticks, and with any inputs, the same machine faults the same way again
(60_exceptions.md section 1, derived there; D5, D6). -/
def Obligations.AFaultIsReproduced : Prop :=
  ∀ (s : State) (ks ks' : Keys) (r r' : Byte) (n : Nat) (f : Fault),
    coreStep ks r s = .fault f → coreStep ks' r' (s.ticks n) = .fault f

/-- A step that faults leaves the session's machine as it was and reports the fault; where no fault is marked yet it marks this
one, else the mark of the first fault stays; no later operation of the host clears or changes the mark, and nothing but a faulting
step sets it (60_exceptions.md sections 1 and 5; D5, D6; the mark is the model's, log 17). -/
def Obligations.FaultsChangeNothingAndStayMarked : Prop :=
  (∀ (σ : Session) (ks : Keys) (r : Byte) (f : Fault), coreStep ks r σ.machine = .fault f →
    ∃ τ, σ.step ks r = .session τ ∧ τ.machine = σ.machine ∧ τ.last = some (.fault f) ∧
      τ.faultMark = some (σ.faultMark.getD f)) ∧
  (∀ (ops : List HostOp) (σ τ : Session) (f : Fault),
    σ.faultMark = some f → Session.run ops σ = .session τ → τ.faultMark = some f) ∧
  (∀ (op : HostOp) (σ τ : Session) (f : Fault),
    σ.move op = .session τ → faultFree σ → τ.faultMark = some f →
    ∃ ks r, op = .step ks r ∧ coreStep ks r σ.machine = .fault f)

/-- `skip()` after UnknownOpcode or OutOfSpec adds 2 to `pc`, wrapped, and changes nothing else; after a stack fault, or when the
most recent step did not fault or there was none, it is not defined (60_exceptions.md section 5; D7). That a skip leaves the
session's last outcome, so that a second skip is defined too, and that an operation not defined answers `notDefined`, are the
model's choice (log 17). -/
def Obligations.SkipIsDefinedOnlyAfterASkippableFault : Prop :=
  ∀ (σ : Session) (op a : Word),
    (σ.last = some (.fault (.unknownOpcode op a)) ∨ σ.last = some (.fault (.outOfSpec op a)) →
      σ.move .skip =
        .session { σ with machine := { σ.machine with pc := BitVec.ofNat 16 ((σ.machine.pc.toNat + 2) % 4096) } }) ∧
    (σ.last = some (.fault (.stackOverflow op a)) ∨ σ.last = some (.fault (.stackUnderflow op a)) ∨
        σ.last = some .retired ∨ σ.last = some .waiting ∨ σ.last = none →
      σ.move .skip = .notDefined)

/-! ### Construction and reset (70_reset_and_hazards.md, 10_state.md) -/

/-- A ROM of more than 3584 bytes is refused with RomTooLarge, whatever the configuration. Under a configuration that 00_scope.md
section 3 admits (`FONT_BASE + 80 <= 0x200`; D18) any other ROM, the one of exactly 3584 bytes that reaches 0xFFF and the empty one
among them, is accepted and lies from 0x200 on; the empty ROM's first step raises UnknownOpcode of 0x0000
(70_reset_and_hazards.md section 1; 30_encoding.md section 3, D2). Under any other configuration the model's construction fails
with its own `fontMisplaced`, where the spec says nothing (log 14). -/
def Obligations.RomIsRefusedOrLoaded : Prop :=
  (∀ (rom : List Byte) (c : Config), 4096 - 0x200 < rom.length → construct rom c = .error .romTooLarge) ∧
  (∀ (rom : List Byte) (c : Config), rom.length ≤ 3584 → c.fontBase.toNat + 80 ≤ 0x200 →
    ∃ s, construct rom c = .ok s ∧ ∀ k (h : k < rom.length), s.readByte (0x200 + k) = rom[k]) ∧
  (∀ (c : Config) (s : State) (ks : Keys) (r : Byte), construct [] c = .ok s →
    coreStep ks r s = .fault (.unknownOpcode 0x0000#16 0x0200#16)) ∧
  (∀ (rom : List Byte) (c : Config), rom.length ≤ 3584 → 0x200 < c.fontBase.toNat + 80 →
    construct rom c = .error .fontMisplaced)

/-- What construction leaves: the font at FONT_BASE, the ROM from 0x200, every other byte 0; registers, `I`, timers and display
zero, the stack empty, `pc` 0x200, no wait pending, the configuration as given (70_reset_and_hazards.md section 1, 10_state.md
section 14; the place and contents of the font are D18, D19, the reset of WAIT_PREV D15). -/
def Obligations.ConstructionLeavesTheResetValues : Prop :=
  ∀ (rom : List Byte) (c : Config) (s : State), construct rom c = .ok s →
    (∀ k (h : k < 80), s.readByte (c.fontBase.toNat + k) = c.fontData[k]) ∧
    (∀ k (h : k < rom.length), s.readByte (0x200 + k) = rom[k]) ∧
    (∀ a < 4096, ¬ (c.fontBase.toNat ≤ a ∧ a < c.fontBase.toNat + 80) → ¬ (0x200 ≤ a ∧ a < 0x200 + rom.length) →
      s.readByte a = 0x00#8) ∧
    (∀ x, s.reg x = 0x00#8) ∧ s.i = 0x0000#16 ∧ s.pc = 0x0200#16 ∧ s.stack = [] ∧ s.dt = 0x00#8 ∧ s.st = 0x00#8 ∧
    (∀ px py, Display.pix s.disp px py = false) ∧ s.wait = none ∧ s.waitPrev = noKeys ∧ s.cfg = c

/-- The reset state is the construction with an empty ROM and the default configuration of 00_scope.md section 3. That it is the
EMPTY ROM is the model's choice (log 11: a program is loaded by `construct`); the default font is general knowledge (log 3; D19);
FX0A_TRIGGER is open (log 2); the values of the model's own fields are its choice (log 7), and this statement rests on them only in
that both sides have the same. -/
def Obligations.ResetIsDefaultConstruction : Prop :=
  construct [] defaultConfig = .ok State.reset ∧ defaultConfig.fontBase = 0x050#12 ∧
  defaultConfig.shiftSource = .vx ∧ defaultConfig.loadStoreIncrement = .unchanged ∧ defaultConfig.rangePolicy = .refuse

/-- At a jump to itself with no wait pending, the end marker of 70_reset_and_hazards.md section 4 (D30, a convention), the machine
loops: the step retires at the same `pc`, changes nothing but the latched inputs, and the next state has stopped too. -/
def Obligations.AStoppedProgramLoops : Prop :=
  ∀ (s : State) (ks : Keys) (r : Byte), hasStopped s → s.pc.toNat < 0x1000 →
    coreStep ks r s = .next (s.latch ks r) ∧ hasStopped (s.latch ks r)

/-! ### The invariant (10_state.md section 13) -/

/-- The reset state meets the invariant: the bounds and the blocked instruction of 10_state.md section 13, at the values of section
14, and beside them the canonical form of memory, which is the model's choice (log 10) and no rule of the spec. -/
def Obligations.ResetMeetsTheInvariant : Prop := Inv State.reset

/-- Every step that answers a next state keeps the invariant: `I`, `pc` and stack entries below 0x1000, at most 16 entries, the
blocked LD Vx, K still at `pc` while a wait is pending (10_state.md section 13, derived there; D3, D4, D29), and memory in its
canonical form, which is the model's choice (log 10) and no rule of the spec. -/
def Obligations.EveryStepKeepsTheInvariant : Prop :=
  ∀ s t : State, Inv s → step s = .next t → Inv t

/-- Every move of the host that leaves a session keeps the session's invariant: its machine meets the invariant above, a wait is
pending exactly when the most recent step was Waiting, and a session whose most recent step faulted is marked (10_state.md section
13; 60_exceptions.md sections 1 and 5, where a skip finds no wait pending; D6, D7). The canonical form of memory (log 10), the wait
read off WAIT (log 9) and the kept outcome and mark (log 17) are the model's choice. -/
def Obligations.EveryMoveKeepsTheSessionInvariant : Prop :=
  ∀ (op : HostOp) (σ τ : Session), SessionInv σ → σ.move op = .session τ → SessionInv τ

/-- Every session the host can reach from a construction, by any sequence of steps with any inputs, ticks, observations and
skips, faults on the way or not, meets the invariant (10_state.md section 13; 60_exceptions.md section 5; D7, D26, D35); the
canonical form of memory in it is the model's choice (log 10). -/
def Obligations.EveryReachableSessionMeetsTheInvariant : Prop :=
  ∀ (rom : List Byte) (c : Config) (s : State) (ops : List HostOp) (τ : Session),
    construct rom c = .ok s → Session.run ops (Session.start s) = .session τ → Inv τ.machine
end

