-- ==== Sys2Proof/Laws/Decode.lean ====
section
/-! SUPPORT. The bits and fields of the words the encoder builds, and of a word in general. -/

namespace Sys2Proof.Laws.Decode

variable (h : Nibble) (nnn : Addr) (x y : RegIx) (kk : Byte) (n : Nibble) (op : Word) (k : Nat)

/-! ### Bits -/

theorem getLsbD_encodeNNN :
    (encodeNNN h nnn).getLsbD k = if k < 12 then nnn.getLsbD k else h.getLsbD (k - 12) :=
  BitVec.getLsbD_append.trans (by split <;> rfl)

theorem getLsbD_encodeXKK :
    (encodeXKK h x kk).getLsbD k =
      if k < 8 then kk.getLsbD k else if k - 8 < 4 then x.getLsbD (k - 8) else h.getLsbD (k - 8 - 4) :=
  (BitVec.getLsbD_append (x := h ++ x) (y := kk)).trans (by rw [BitVec.getLsbD_append])

theorem getLsbD_encodeXYN :
    (encodeXYN h x y n).getLsbD k =
      if k < 4 then n.getLsbD k
      else if k - 4 < 4 then y.getLsbD (k - 4)
      else if k - 4 - 4 < 4 then x.getLsbD (k - 4 - 4)
      else h.getLsbD (k - 4 - 4 - 4) :=
  (BitVec.getLsbD_append (x := h ++ x ++ y) (y := n)).trans (by rw [BitVec.getLsbD_append, BitVec.getLsbD_append])

theorem getLsbD_wordOfBytes (a b : Byte) :
    (wordOfBytes a b).getLsbD k = if k < 8 then b.getLsbD k else a.getLsbD (k - 8) :=
  BitVec.getLsbD_append.trans (by split <;> rfl)

theorem getLsbD_fieldH : (fieldH op).getLsbD k = (decide (k < 4) && op.getLsbD (12 + k)) := BitVec.getLsbD_extractLsb' _ _ _ _
theorem getLsbD_fieldX : (fieldX op).getLsbD k = (decide (k < 4) && op.getLsbD (8 + k)) := BitVec.getLsbD_extractLsb' _ _ _ _
theorem getLsbD_fieldY : (fieldY op).getLsbD k = (decide (k < 4) && op.getLsbD (4 + k)) := BitVec.getLsbD_extractLsb' _ _ _ _
theorem getLsbD_fieldN : (fieldN op).getLsbD k = (decide (k < 4) && op.getLsbD (0 + k)) := BitVec.getLsbD_extractLsb' _ _ _ _
theorem getLsbD_fieldKK : (fieldKK op).getLsbD k = (decide (k < 8) && op.getLsbD (0 + k)) := BitVec.getLsbD_extractLsb' _ _ _ _
theorem getLsbD_fieldNNN : (fieldNNN op).getLsbD k = (decide (k < 12) && op.getLsbD (0 + k)) := BitVec.getLsbD_extractLsb' _ _ _ _
theorem getLsbD_highByte : (highByte op).getLsbD k = (decide (k < 8) && op.getLsbD (8 + k)) := BitVec.getLsbD_extractLsb' _ _ _ _
theorem getLsbD_lowByte : (lowByte op).getLsbD k = (decide (k < 8) && op.getLsbD (0 + k)) := BitVec.getLsbD_extractLsb' _ _ _ _

/-! ### The fields of an encoded word -/

@[simp] theorem fieldH_encodeNNN : fieldH (encodeNNN h nnn) = h := by
  apply BitVec.eq_of_getLsbD_eq; intro k hk
  rw [getLsbD_fieldH, getLsbD_encodeNNN, if_neg (by omega)]; simp [hk]

@[simp] theorem fieldNNN_encodeNNN : fieldNNN (encodeNNN h nnn) = nnn := by
  apply BitVec.eq_of_getLsbD_eq; intro k hk
  rw [getLsbD_fieldNNN, getLsbD_encodeNNN, if_pos (by omega)]; simp [hk]

@[simp] theorem fieldH_encodeXKK : fieldH (encodeXKK h x kk) = h := by
  apply BitVec.eq_of_getLsbD_eq; intro k hk
  rw [getLsbD_fieldH, getLsbD_encodeXKK, if_neg (by omega), if_neg (by omega), show 12 + k - 8 - 4 = k by omega]; simp [hk]

@[simp] theorem fieldX_encodeXKK : fieldX (encodeXKK h x kk) = x := by
  apply BitVec.eq_of_getLsbD_eq; intro k hk
  rw [getLsbD_fieldX, getLsbD_encodeXKK, if_neg (by omega), if_pos (by omega)]; simp [hk]

@[simp] theorem fieldKK_encodeXKK : fieldKK (encodeXKK h x kk) = kk := by
  apply BitVec.eq_of_getLsbD_eq; intro k hk
  rw [getLsbD_fieldKK, getLsbD_encodeXKK, if_pos (by omega)]; simp [hk]

@[simp] theorem fieldH_encodeXYN : fieldH (encodeXYN h x y n) = h := by
  apply BitVec.eq_of_getLsbD_eq; intro k hk
  rw [getLsbD_fieldH, getLsbD_encodeXYN, if_neg (by omega), if_neg (by omega), if_neg (by omega),
    show 12 + k - 4 - 4 - 4 = k by omega]
  simp [hk]

@[simp] theorem fieldX_encodeXYN : fieldX (encodeXYN h x y n) = x := by
  apply BitVec.eq_of_getLsbD_eq; intro k hk
  rw [getLsbD_fieldX, getLsbD_encodeXYN, if_neg (by omega), if_neg (by omega), if_pos (by omega),
    show 8 + k - 4 - 4 = k by omega]
  simp [hk]

@[simp] theorem fieldY_encodeXYN : fieldY (encodeXYN h x y n) = y := by
  apply BitVec.eq_of_getLsbD_eq; intro k hk
  rw [getLsbD_fieldY, getLsbD_encodeXYN, if_neg (by omega), if_pos (by omega)]; simp [hk]

@[simp] theorem fieldN_encodeXYN : fieldN (encodeXYN h x y n) = n := by
  apply BitVec.eq_of_getLsbD_eq; intro k hk
  rw [getLsbD_fieldN, getLsbD_encodeXYN, if_pos (by omega)]; simp [hk]

/-! ### A word from its fields -/

/-- A word is its high nibble and its address field. -/
theorem encodeNNN_fields : encodeNNN (fieldH op) (fieldNNN op) = op := by
  apply BitVec.eq_of_getLsbD_eq; intro k hk
  rw [getLsbD_encodeNNN, getLsbD_fieldNNN, getLsbD_fieldH]
  split <;> rename_i h1
  · simp [h1]
  · have h2 : k - 12 < 4 := by omega
    simp [h2, show 12 + (k - 12) = k by omega]

/-- A word is its high nibble, its register field and its low byte. -/
theorem encodeXKK_fields : encodeXKK (fieldH op) (fieldX op) (fieldKK op) = op := by
  apply BitVec.eq_of_getLsbD_eq; intro k hk
  rw [getLsbD_encodeXKK, getLsbD_fieldKK, getLsbD_fieldX, getLsbD_fieldH]
  split <;> rename_i h1
  · simp [h1]
  · split <;> rename_i h2
    · simp [h2, show 8 + (k - 8) = k by omega]
    · have h3 : k - 8 - 4 < 4 := by omega
      simp [h3, show 12 + (k - 8 - 4) = k by omega]

/-- A word is its four nibbles. -/
theorem encodeXYN_fields : encodeXYN (fieldH op) (fieldX op) (fieldY op) (fieldN op) = op := by
  apply BitVec.eq_of_getLsbD_eq; intro k hk
  rw [getLsbD_encodeXYN, getLsbD_fieldN, getLsbD_fieldY, getLsbD_fieldX, getLsbD_fieldH]
  split <;> rename_i h1
  · simp [h1]
  · split <;> rename_i h2
    · simp [h2, show 4 + (k - 4) = k by omega]
    · split <;> rename_i h3
      · simp [h3, show 8 + (k - 4 - 4) = k by omega]
      · have h4 : k - 4 - 4 - 4 < 4 := by omega
        simp [h4, show 12 + (k - 4 - 4 - 4) = k by omega]

/-! ### Bytes (R102) -/

/-- The two bytes of a word make the word again. -/
@[simp] theorem wordOfBytes_bytes : wordOfBytes (highByte op) (lowByte op) = op := by
  apply BitVec.eq_of_getLsbD_eq; intro k hk
  rw [getLsbD_wordOfBytes, getLsbD_lowByte, getLsbD_highByte]
  split <;> rename_i h1
  · simp [h1]
  · have h2 : k - 8 < 8 := by omega
    simp [h2, show 8 + (k - 8) = k by omega]

/-- The value of a big-endian word. -/
theorem wordOfBytes_toNat (a b : Byte) : (wordOfBytes a b).toNat = a.toNat * 256 + b.toNat := by
  have hb : b.toNat < 2 ^ 8 := b.isLt
  have h1 : (wordOfBytes a b).toNat = a.toNat <<< 8 ||| b.toNat := BitVec.toNat_append a b
  rw [h1, ← Nat.shiftLeft_add_eq_or_of_lt hb, Nat.shiftLeft_eq]

end Sys2Proof.Laws.Decode
end

