-- ==== Sys2Proof/Laws/State.lean ====
section
/-! SUPPORT. One lemma for each field under each update of the state, so that no later proof unfolds an update; then what each
update leaves of a register and of a byte of memory. -/

namespace Sys2Proof.Laws.State

open Sys2Proof.Machine

variable (s : State)

/-! ### setReg -/

@[simp] theorem setReg_mem (x : RegIx) (b : Byte) : (s.setReg x b).mem = s.mem := rfl
@[simp] theorem setReg_v (x : RegIx) (b : Byte) : (s.setReg x b).v = s.v.set x.toNat b x.isLt := rfl
@[simp] theorem setReg_i (x : RegIx) (b : Byte) : (s.setReg x b).i = s.i := rfl
@[simp] theorem setReg_pc (x : RegIx) (b : Byte) : (s.setReg x b).pc = s.pc := rfl
@[simp] theorem setReg_stack (x : RegIx) (b : Byte) : (s.setReg x b).stack = s.stack := rfl
@[simp] theorem setReg_dt (x : RegIx) (b : Byte) : (s.setReg x b).dt = s.dt := rfl
@[simp] theorem setReg_st (x : RegIx) (b : Byte) : (s.setReg x b).st = s.st := rfl
@[simp] theorem setReg_disp (x : RegIx) (b : Byte) : (s.setReg x b).disp = s.disp := rfl
@[simp] theorem setReg_wait (x : RegIx) (b : Byte) : (s.setReg x b).wait = s.wait := rfl
@[simp] theorem setReg_waitPrev (x : RegIx) (b : Byte) : (s.setReg x b).waitPrev = s.waitPrev := rfl
@[simp] theorem setReg_keys (x : RegIx) (b : Byte) : (s.setReg x b).keys = s.keys := rfl
@[simp] theorem setReg_rnd (x : RegIx) (b : Byte) : (s.setReg x b).rnd = s.rnd := rfl
@[simp] theorem setReg_cfg (x : RegIx) (b : Byte) : (s.setReg x b).cfg = s.cfg := rfl
@[simp] theorem setReg_turns (x : RegIx) (b : Byte) : (s.setReg x b).turns = s.turns := rfl
@[simp] theorem setReg_turnsTaken (x : RegIx) (b : Byte) : (s.setReg x b).turnsTaken = s.turnsTaken := rfl
@[simp] theorem setReg_readByte (x : RegIx) (b : Byte) (c : Nat) : (s.setReg x b).readByte c = s.readByte c := rfl

/-! ### setI -/

@[simp] theorem setI_mem (n : Nat) : (s.setI n).mem = s.mem := rfl
@[simp] theorem setI_v (n : Nat) : (s.setI n).v = s.v := rfl
@[simp] theorem setI_i (n : Nat) : (s.setI n).i = wrap12 n := rfl
@[simp] theorem setI_pc (n : Nat) : (s.setI n).pc = s.pc := rfl
@[simp] theorem setI_stack (n : Nat) : (s.setI n).stack = s.stack := rfl
@[simp] theorem setI_dt (n : Nat) : (s.setI n).dt = s.dt := rfl
@[simp] theorem setI_st (n : Nat) : (s.setI n).st = s.st := rfl
@[simp] theorem setI_disp (n : Nat) : (s.setI n).disp = s.disp := rfl
@[simp] theorem setI_wait (n : Nat) : (s.setI n).wait = s.wait := rfl
@[simp] theorem setI_waitPrev (n : Nat) : (s.setI n).waitPrev = s.waitPrev := rfl
@[simp] theorem setI_keys (n : Nat) : (s.setI n).keys = s.keys := rfl
@[simp] theorem setI_rnd (n : Nat) : (s.setI n).rnd = s.rnd := rfl
@[simp] theorem setI_cfg (n : Nat) : (s.setI n).cfg = s.cfg := rfl
@[simp] theorem setI_turns (n : Nat) : (s.setI n).turns = s.turns := rfl
@[simp] theorem setI_turnsTaken (n : Nat) : (s.setI n).turnsTaken = s.turnsTaken := rfl
@[simp] theorem setI_reg (n : Nat) (q : RegIx) : (s.setI n).reg q = s.reg q := rfl
@[simp] theorem setI_readByte (n : Nat) (c : Nat) : (s.setI n).readByte c = s.readByte c := rfl

/-! ### setPc -/

@[simp] theorem setPc_mem (n : Nat) : (s.setPc n).mem = s.mem := rfl
@[simp] theorem setPc_v (n : Nat) : (s.setPc n).v = s.v := rfl
@[simp] theorem setPc_i (n : Nat) : (s.setPc n).i = s.i := rfl
@[simp] theorem setPc_pc (n : Nat) : (s.setPc n).pc = wrap12 n := rfl
@[simp] theorem setPc_stack (n : Nat) : (s.setPc n).stack = s.stack := rfl
@[simp] theorem setPc_dt (n : Nat) : (s.setPc n).dt = s.dt := rfl
@[simp] theorem setPc_st (n : Nat) : (s.setPc n).st = s.st := rfl
@[simp] theorem setPc_disp (n : Nat) : (s.setPc n).disp = s.disp := rfl
@[simp] theorem setPc_wait (n : Nat) : (s.setPc n).wait = s.wait := rfl
@[simp] theorem setPc_waitPrev (n : Nat) : (s.setPc n).waitPrev = s.waitPrev := rfl
@[simp] theorem setPc_keys (n : Nat) : (s.setPc n).keys = s.keys := rfl
@[simp] theorem setPc_rnd (n : Nat) : (s.setPc n).rnd = s.rnd := rfl
@[simp] theorem setPc_cfg (n : Nat) : (s.setPc n).cfg = s.cfg := rfl
@[simp] theorem setPc_turns (n : Nat) : (s.setPc n).turns = s.turns := rfl
@[simp] theorem setPc_turnsTaken (n : Nat) : (s.setPc n).turnsTaken = s.turnsTaken := rfl
@[simp] theorem setPc_reg (n : Nat) (q : RegIx) : (s.setPc n).reg q = s.reg q := rfl
@[simp] theorem setPc_readByte (n : Nat) (c : Nat) : (s.setPc n).readByte c = s.readByte c := rfl

/-! ### writeByte -/

@[simp] theorem writeByte_mem (a : Nat) (b : Byte) : (s.writeByte a b).mem = Memory.write (constructedByte s.cfg (a % 4096)) s.mem (a % 4096) b := rfl
@[simp] theorem writeByte_v (a : Nat) (b : Byte) : (s.writeByte a b).v = s.v := rfl
@[simp] theorem writeByte_i (a : Nat) (b : Byte) : (s.writeByte a b).i = s.i := rfl
@[simp] theorem writeByte_pc (a : Nat) (b : Byte) : (s.writeByte a b).pc = s.pc := rfl
@[simp] theorem writeByte_stack (a : Nat) (b : Byte) : (s.writeByte a b).stack = s.stack := rfl
@[simp] theorem writeByte_dt (a : Nat) (b : Byte) : (s.writeByte a b).dt = s.dt := rfl
@[simp] theorem writeByte_st (a : Nat) (b : Byte) : (s.writeByte a b).st = s.st := rfl
@[simp] theorem writeByte_disp (a : Nat) (b : Byte) : (s.writeByte a b).disp = s.disp := rfl
@[simp] theorem writeByte_wait (a : Nat) (b : Byte) : (s.writeByte a b).wait = s.wait := rfl
@[simp] theorem writeByte_waitPrev (a : Nat) (b : Byte) : (s.writeByte a b).waitPrev = s.waitPrev := rfl
@[simp] theorem writeByte_keys (a : Nat) (b : Byte) : (s.writeByte a b).keys = s.keys := rfl
@[simp] theorem writeByte_rnd (a : Nat) (b : Byte) : (s.writeByte a b).rnd = s.rnd := rfl
@[simp] theorem writeByte_cfg (a : Nat) (b : Byte) : (s.writeByte a b).cfg = s.cfg := rfl
@[simp] theorem writeByte_turns (a : Nat) (b : Byte) : (s.writeByte a b).turns = s.turns := rfl
@[simp] theorem writeByte_turnsTaken (a : Nat) (b : Byte) : (s.writeByte a b).turnsTaken = s.turnsTaken := rfl
@[simp] theorem writeByte_reg (a : Nat) (b : Byte) (q : RegIx) : (s.writeByte a b).reg q = s.reg q := rfl

/-! ### push -/

@[simp] theorem push_mem (a : Nat) : (s.push a).mem = s.mem := rfl
@[simp] theorem push_v (a : Nat) : (s.push a).v = s.v := rfl
@[simp] theorem push_i (a : Nat) : (s.push a).i = s.i := rfl
@[simp] theorem push_pc (a : Nat) : (s.push a).pc = s.pc := rfl
@[simp] theorem push_stack (a : Nat) : (s.push a).stack = wrap12 a :: s.stack := rfl
@[simp] theorem push_dt (a : Nat) : (s.push a).dt = s.dt := rfl
@[simp] theorem push_st (a : Nat) : (s.push a).st = s.st := rfl
@[simp] theorem push_disp (a : Nat) : (s.push a).disp = s.disp := rfl
@[simp] theorem push_wait (a : Nat) : (s.push a).wait = s.wait := rfl
@[simp] theorem push_waitPrev (a : Nat) : (s.push a).waitPrev = s.waitPrev := rfl
@[simp] theorem push_keys (a : Nat) : (s.push a).keys = s.keys := rfl
@[simp] theorem push_rnd (a : Nat) : (s.push a).rnd = s.rnd := rfl
@[simp] theorem push_cfg (a : Nat) : (s.push a).cfg = s.cfg := rfl
@[simp] theorem push_turns (a : Nat) : (s.push a).turns = s.turns := rfl
@[simp] theorem push_turnsTaken (a : Nat) : (s.push a).turnsTaken = s.turnsTaken := rfl
@[simp] theorem push_reg (a : Nat) (q : RegIx) : (s.push a).reg q = s.reg q := rfl
@[simp] theorem push_readByte (a : Nat) (c : Nat) : (s.push a).readByte c = s.readByte c := rfl

/-! ### setDt -/

@[simp] theorem setDt_mem (b : Byte) : (s.setDt b).mem = s.mem := rfl
@[simp] theorem setDt_v (b : Byte) : (s.setDt b).v = s.v := rfl
@[simp] theorem setDt_i (b : Byte) : (s.setDt b).i = s.i := rfl
@[simp] theorem setDt_pc (b : Byte) : (s.setDt b).pc = s.pc := rfl
@[simp] theorem setDt_stack (b : Byte) : (s.setDt b).stack = s.stack := rfl
@[simp] theorem setDt_dt (b : Byte) : (s.setDt b).dt = b := rfl
@[simp] theorem setDt_st (b : Byte) : (s.setDt b).st = s.st := rfl
@[simp] theorem setDt_disp (b : Byte) : (s.setDt b).disp = s.disp := rfl
@[simp] theorem setDt_wait (b : Byte) : (s.setDt b).wait = s.wait := rfl
@[simp] theorem setDt_waitPrev (b : Byte) : (s.setDt b).waitPrev = s.waitPrev := rfl
@[simp] theorem setDt_keys (b : Byte) : (s.setDt b).keys = s.keys := rfl
@[simp] theorem setDt_rnd (b : Byte) : (s.setDt b).rnd = s.rnd := rfl
@[simp] theorem setDt_cfg (b : Byte) : (s.setDt b).cfg = s.cfg := rfl
@[simp] theorem setDt_turns (b : Byte) : (s.setDt b).turns = s.turns := rfl
@[simp] theorem setDt_turnsTaken (b : Byte) : (s.setDt b).turnsTaken = s.turnsTaken := rfl
@[simp] theorem setDt_reg (b : Byte) (q : RegIx) : (s.setDt b).reg q = s.reg q := rfl
@[simp] theorem setDt_readByte (b : Byte) (c : Nat) : (s.setDt b).readByte c = s.readByte c := rfl

/-! ### setSt -/

@[simp] theorem setSt_mem (b : Byte) : (s.setSt b).mem = s.mem := rfl
@[simp] theorem setSt_v (b : Byte) : (s.setSt b).v = s.v := rfl
@[simp] theorem setSt_i (b : Byte) : (s.setSt b).i = s.i := rfl
@[simp] theorem setSt_pc (b : Byte) : (s.setSt b).pc = s.pc := rfl
@[simp] theorem setSt_stack (b : Byte) : (s.setSt b).stack = s.stack := rfl
@[simp] theorem setSt_dt (b : Byte) : (s.setSt b).dt = s.dt := rfl
@[simp] theorem setSt_st (b : Byte) : (s.setSt b).st = b := rfl
@[simp] theorem setSt_disp (b : Byte) : (s.setSt b).disp = s.disp := rfl
@[simp] theorem setSt_wait (b : Byte) : (s.setSt b).wait = s.wait := rfl
@[simp] theorem setSt_waitPrev (b : Byte) : (s.setSt b).waitPrev = s.waitPrev := rfl
@[simp] theorem setSt_keys (b : Byte) : (s.setSt b).keys = s.keys := rfl
@[simp] theorem setSt_rnd (b : Byte) : (s.setSt b).rnd = s.rnd := rfl
@[simp] theorem setSt_cfg (b : Byte) : (s.setSt b).cfg = s.cfg := rfl
@[simp] theorem setSt_turns (b : Byte) : (s.setSt b).turns = s.turns := rfl
@[simp] theorem setSt_turnsTaken (b : Byte) : (s.setSt b).turnsTaken = s.turnsTaken := rfl
@[simp] theorem setSt_reg (b : Byte) (q : RegIx) : (s.setSt b).reg q = s.reg q := rfl
@[simp] theorem setSt_readByte (b : Byte) (c : Nat) : (s.setSt b).readByte c = s.readByte c := rfl

/-! ### setDisp -/

@[simp] theorem setDisp_mem (d : Display) : (s.setDisp d).mem = s.mem := rfl
@[simp] theorem setDisp_v (d : Display) : (s.setDisp d).v = s.v := rfl
@[simp] theorem setDisp_i (d : Display) : (s.setDisp d).i = s.i := rfl
@[simp] theorem setDisp_pc (d : Display) : (s.setDisp d).pc = s.pc := rfl
@[simp] theorem setDisp_stack (d : Display) : (s.setDisp d).stack = s.stack := rfl
@[simp] theorem setDisp_dt (d : Display) : (s.setDisp d).dt = s.dt := rfl
@[simp] theorem setDisp_st (d : Display) : (s.setDisp d).st = s.st := rfl
@[simp] theorem setDisp_disp (d : Display) : (s.setDisp d).disp = d := rfl
@[simp] theorem setDisp_wait (d : Display) : (s.setDisp d).wait = s.wait := rfl
@[simp] theorem setDisp_waitPrev (d : Display) : (s.setDisp d).waitPrev = s.waitPrev := rfl
@[simp] theorem setDisp_keys (d : Display) : (s.setDisp d).keys = s.keys := rfl
@[simp] theorem setDisp_rnd (d : Display) : (s.setDisp d).rnd = s.rnd := rfl
@[simp] theorem setDisp_cfg (d : Display) : (s.setDisp d).cfg = s.cfg := rfl
@[simp] theorem setDisp_turns (d : Display) : (s.setDisp d).turns = s.turns := rfl
@[simp] theorem setDisp_turnsTaken (d : Display) : (s.setDisp d).turnsTaken = s.turnsTaken := rfl
@[simp] theorem setDisp_reg (d : Display) (q : RegIx) : (s.setDisp d).reg q = s.reg q := rfl
@[simp] theorem setDisp_readByte (d : Display) (c : Nat) : (s.setDisp d).readByte c = s.readByte c := rfl

/-! ### setWait -/

@[simp] theorem setWait_mem (w : Option RegIx) : (s.setWait w).mem = s.mem := rfl
@[simp] theorem setWait_v (w : Option RegIx) : (s.setWait w).v = s.v := rfl
@[simp] theorem setWait_i (w : Option RegIx) : (s.setWait w).i = s.i := rfl
@[simp] theorem setWait_pc (w : Option RegIx) : (s.setWait w).pc = s.pc := rfl
@[simp] theorem setWait_stack (w : Option RegIx) : (s.setWait w).stack = s.stack := rfl
@[simp] theorem setWait_dt (w : Option RegIx) : (s.setWait w).dt = s.dt := rfl
@[simp] theorem setWait_st (w : Option RegIx) : (s.setWait w).st = s.st := rfl
@[simp] theorem setWait_disp (w : Option RegIx) : (s.setWait w).disp = s.disp := rfl
@[simp] theorem setWait_wait (w : Option RegIx) : (s.setWait w).wait = w := rfl
@[simp] theorem setWait_waitPrev (w : Option RegIx) : (s.setWait w).waitPrev = s.waitPrev := rfl
@[simp] theorem setWait_keys (w : Option RegIx) : (s.setWait w).keys = s.keys := rfl
@[simp] theorem setWait_rnd (w : Option RegIx) : (s.setWait w).rnd = s.rnd := rfl
@[simp] theorem setWait_cfg (w : Option RegIx) : (s.setWait w).cfg = s.cfg := rfl
@[simp] theorem setWait_turns (w : Option RegIx) : (s.setWait w).turns = s.turns := rfl
@[simp] theorem setWait_turnsTaken (w : Option RegIx) : (s.setWait w).turnsTaken = s.turnsTaken := rfl
@[simp] theorem setWait_reg (w : Option RegIx) (q : RegIx) : (s.setWait w).reg q = s.reg q := rfl
@[simp] theorem setWait_readByte (w : Option RegIx) (c : Nat) : (s.setWait w).readByte c = s.readByte c := rfl

/-! ### setWaitPrev -/

@[simp] theorem setWaitPrev_mem (ks : Keys) : (s.setWaitPrev ks).mem = s.mem := rfl
@[simp] theorem setWaitPrev_v (ks : Keys) : (s.setWaitPrev ks).v = s.v := rfl
@[simp] theorem setWaitPrev_i (ks : Keys) : (s.setWaitPrev ks).i = s.i := rfl
@[simp] theorem setWaitPrev_pc (ks : Keys) : (s.setWaitPrev ks).pc = s.pc := rfl
@[simp] theorem setWaitPrev_stack (ks : Keys) : (s.setWaitPrev ks).stack = s.stack := rfl
@[simp] theorem setWaitPrev_dt (ks : Keys) : (s.setWaitPrev ks).dt = s.dt := rfl
@[simp] theorem setWaitPrev_st (ks : Keys) : (s.setWaitPrev ks).st = s.st := rfl
@[simp] theorem setWaitPrev_disp (ks : Keys) : (s.setWaitPrev ks).disp = s.disp := rfl
@[simp] theorem setWaitPrev_wait (ks : Keys) : (s.setWaitPrev ks).wait = s.wait := rfl
@[simp] theorem setWaitPrev_waitPrev (ks : Keys) : (s.setWaitPrev ks).waitPrev = ks := rfl
@[simp] theorem setWaitPrev_keys (ks : Keys) : (s.setWaitPrev ks).keys = s.keys := rfl
@[simp] theorem setWaitPrev_rnd (ks : Keys) : (s.setWaitPrev ks).rnd = s.rnd := rfl
@[simp] theorem setWaitPrev_cfg (ks : Keys) : (s.setWaitPrev ks).cfg = s.cfg := rfl
@[simp] theorem setWaitPrev_turns (ks : Keys) : (s.setWaitPrev ks).turns = s.turns := rfl
@[simp] theorem setWaitPrev_turnsTaken (ks : Keys) : (s.setWaitPrev ks).turnsTaken = s.turnsTaken := rfl
@[simp] theorem setWaitPrev_reg (ks : Keys) (q : RegIx) : (s.setWaitPrev ks).reg q = s.reg q := rfl
@[simp] theorem setWaitPrev_readByte (ks : Keys) (c : Nat) : (s.setWaitPrev ks).readByte c = s.readByte c := rfl

/-! ### latch -/

@[simp] theorem latch_mem (ks : Keys) (r : Byte) : (s.latch ks r).mem = s.mem := rfl
@[simp] theorem latch_v (ks : Keys) (r : Byte) : (s.latch ks r).v = s.v := rfl
@[simp] theorem latch_i (ks : Keys) (r : Byte) : (s.latch ks r).i = s.i := rfl
@[simp] theorem latch_pc (ks : Keys) (r : Byte) : (s.latch ks r).pc = s.pc := rfl
@[simp] theorem latch_stack (ks : Keys) (r : Byte) : (s.latch ks r).stack = s.stack := rfl
@[simp] theorem latch_dt (ks : Keys) (r : Byte) : (s.latch ks r).dt = s.dt := rfl
@[simp] theorem latch_st (ks : Keys) (r : Byte) : (s.latch ks r).st = s.st := rfl
@[simp] theorem latch_disp (ks : Keys) (r : Byte) : (s.latch ks r).disp = s.disp := rfl
@[simp] theorem latch_wait (ks : Keys) (r : Byte) : (s.latch ks r).wait = s.wait := rfl
@[simp] theorem latch_waitPrev (ks : Keys) (r : Byte) : (s.latch ks r).waitPrev = s.waitPrev := rfl
@[simp] theorem latch_keys (ks : Keys) (r : Byte) : (s.latch ks r).keys = ks := rfl
@[simp] theorem latch_rnd (ks : Keys) (r : Byte) : (s.latch ks r).rnd = r := rfl
@[simp] theorem latch_cfg (ks : Keys) (r : Byte) : (s.latch ks r).cfg = s.cfg := rfl
@[simp] theorem latch_turns (ks : Keys) (r : Byte) : (s.latch ks r).turns = s.turns := rfl
@[simp] theorem latch_turnsTaken (ks : Keys) (r : Byte) : (s.latch ks r).turnsTaken = s.turnsTaken := rfl
@[simp] theorem latch_reg (ks : Keys) (r : Byte) (q : RegIx) : (s.latch ks r).reg q = s.reg q := rfl
@[simp] theorem latch_readByte (ks : Keys) (r : Byte) (c : Nat) : (s.latch ks r).readByte c = s.readByte c := rfl

/-! ### dropTurn -/

@[simp] theorem dropTurn_mem : s.dropTurn.mem = s.mem := rfl
@[simp] theorem dropTurn_v : s.dropTurn.v = s.v := rfl
@[simp] theorem dropTurn_i : s.dropTurn.i = s.i := rfl
@[simp] theorem dropTurn_pc : s.dropTurn.pc = s.pc := rfl
@[simp] theorem dropTurn_stack : s.dropTurn.stack = s.stack := rfl
@[simp] theorem dropTurn_dt : s.dropTurn.dt = s.dt := rfl
@[simp] theorem dropTurn_st : s.dropTurn.st = s.st := rfl
@[simp] theorem dropTurn_disp : s.dropTurn.disp = s.disp := rfl
@[simp] theorem dropTurn_wait : s.dropTurn.wait = s.wait := rfl
@[simp] theorem dropTurn_waitPrev : s.dropTurn.waitPrev = s.waitPrev := rfl
@[simp] theorem dropTurn_keys : s.dropTurn.keys = s.keys := rfl
@[simp] theorem dropTurn_rnd : s.dropTurn.rnd = s.rnd := rfl
@[simp] theorem dropTurn_cfg : s.dropTurn.cfg = s.cfg := rfl
@[simp] theorem dropTurn_turns : s.dropTurn.turns = s.turns.tail := rfl
@[simp] theorem dropTurn_turnsTaken : s.dropTurn.turnsTaken = s.turnsTaken + 1 := rfl
@[simp] theorem dropTurn_reg (q : RegIx) : s.dropTurn.reg q = s.reg q := rfl
@[simp] theorem dropTurn_readByte (c : Nat) : s.dropTurn.readByte c = s.readByte c := rfl

/-! ### rememberKeys -/

@[simp] theorem rememberKeys_mem : s.rememberKeys.mem = s.mem := rfl
@[simp] theorem rememberKeys_v : s.rememberKeys.v = s.v := rfl
@[simp] theorem rememberKeys_i : s.rememberKeys.i = s.i := rfl
@[simp] theorem rememberKeys_pc : s.rememberKeys.pc = s.pc := rfl
@[simp] theorem rememberKeys_stack : s.rememberKeys.stack = s.stack := rfl
@[simp] theorem rememberKeys_dt : s.rememberKeys.dt = s.dt := rfl
@[simp] theorem rememberKeys_st : s.rememberKeys.st = s.st := rfl
@[simp] theorem rememberKeys_disp : s.rememberKeys.disp = s.disp := rfl
@[simp] theorem rememberKeys_wait : s.rememberKeys.wait = s.wait := rfl
@[simp] theorem rememberKeys_keys : s.rememberKeys.keys = s.keys := rfl
@[simp] theorem rememberKeys_rnd : s.rememberKeys.rnd = s.rnd := rfl
@[simp] theorem rememberKeys_cfg : s.rememberKeys.cfg = s.cfg := rfl
@[simp] theorem rememberKeys_turns : s.rememberKeys.turns = s.turns := rfl
@[simp] theorem rememberKeys_turnsTaken : s.rememberKeys.turnsTaken = s.turnsTaken := rfl
@[simp] theorem rememberKeys_reg (q : RegIx) : s.rememberKeys.reg q = s.reg q := rfl
@[simp] theorem rememberKeys_readByte (c : Nat) : s.rememberKeys.readByte c = s.readByte c := rfl

/-! ### bumpI -/

@[simp] theorem bumpI_mem (x : RegIx) : (s.bumpI x).mem = s.mem := rfl
@[simp] theorem bumpI_v (x : RegIx) : (s.bumpI x).v = s.v := rfl
@[simp] theorem bumpI_pc (x : RegIx) : (s.bumpI x).pc = s.pc := rfl
@[simp] theorem bumpI_stack (x : RegIx) : (s.bumpI x).stack = s.stack := rfl
@[simp] theorem bumpI_dt (x : RegIx) : (s.bumpI x).dt = s.dt := rfl
@[simp] theorem bumpI_st (x : RegIx) : (s.bumpI x).st = s.st := rfl
@[simp] theorem bumpI_disp (x : RegIx) : (s.bumpI x).disp = s.disp := rfl
@[simp] theorem bumpI_wait (x : RegIx) : (s.bumpI x).wait = s.wait := rfl
@[simp] theorem bumpI_waitPrev (x : RegIx) : (s.bumpI x).waitPrev = s.waitPrev := rfl
@[simp] theorem bumpI_keys (x : RegIx) : (s.bumpI x).keys = s.keys := rfl
@[simp] theorem bumpI_rnd (x : RegIx) : (s.bumpI x).rnd = s.rnd := rfl
@[simp] theorem bumpI_cfg (x : RegIx) : (s.bumpI x).cfg = s.cfg := rfl
@[simp] theorem bumpI_turns (x : RegIx) : (s.bumpI x).turns = s.turns := rfl
@[simp] theorem bumpI_turnsTaken (x : RegIx) : (s.bumpI x).turnsTaken = s.turnsTaken := rfl
@[simp] theorem bumpI_reg (x : RegIx) (q : RegIx) : (s.bumpI x).reg q = s.reg q := rfl
@[simp] theorem bumpI_readByte (x : RegIx) (c : Nat) : (s.bumpI x).readByte c = s.readByte c := rfl

/-! ### ticks -/

@[simp] theorem ticks_mem (n : Nat) : (State.ticks n s).mem = s.mem := rfl
@[simp] theorem ticks_v (n : Nat) : (State.ticks n s).v = s.v := rfl
@[simp] theorem ticks_i (n : Nat) : (State.ticks n s).i = s.i := rfl
@[simp] theorem ticks_pc (n : Nat) : (State.ticks n s).pc = s.pc := rfl
@[simp] theorem ticks_stack (n : Nat) : (State.ticks n s).stack = s.stack := rfl
@[simp] theorem ticks_dt (n : Nat) : (State.ticks n s).dt = timerAfter n s.dt := rfl
@[simp] theorem ticks_st (n : Nat) : (State.ticks n s).st = timerAfter n s.st := rfl
@[simp] theorem ticks_disp (n : Nat) : (State.ticks n s).disp = s.disp := rfl
@[simp] theorem ticks_wait (n : Nat) : (State.ticks n s).wait = s.wait := rfl
@[simp] theorem ticks_waitPrev (n : Nat) : (State.ticks n s).waitPrev = s.waitPrev := rfl
@[simp] theorem ticks_keys (n : Nat) : (State.ticks n s).keys = s.keys := rfl
@[simp] theorem ticks_rnd (n : Nat) : (State.ticks n s).rnd = s.rnd := rfl
@[simp] theorem ticks_cfg (n : Nat) : (State.ticks n s).cfg = s.cfg := rfl
@[simp] theorem ticks_turns (n : Nat) : (State.ticks n s).turns = s.turns := rfl
@[simp] theorem ticks_turnsTaken (n : Nat) : (State.ticks n s).turnsTaken = s.turnsTaken := rfl
@[simp] theorem ticks_reg (n : Nat) (q : RegIx) : (State.ticks n s).reg q = s.reg q := rfl
@[simp] theorem ticks_readByte (n : Nat) (c : Nat) : (State.ticks n s).readByte c = s.readByte c := rfl

/-! ### What follows from the updates -/

/-- `V[x]` after a write of `V[y]`. -/
@[simp] theorem setReg_reg (x y : RegIx) (b : Byte) : (s.setReg y b).reg x = if x = y then b else s.reg x := by
  by_cases h : x = y
  · subst h; simp [State.reg, State.setReg]
  · have hne : y.toNat ≠ x.toNat := fun e => h (BitVec.eq_of_toNat_eq e.symm)
    simp [State.reg, State.setReg, h, Vector.getElem_set_ne, hne]

/-- Writing a register the value it holds changes nothing. -/
theorem setReg_self (x : RegIx) : s.setReg x (s.reg x) = s := by
  simp [State.setReg, State.reg]

/-- A second write to the same register is the one that counts. -/
theorem setReg_setReg (x : RegIx) (a b : Byte) : (s.setReg x a).setReg x b = s.setReg x b := by
  simp [State.setReg]

/-- `WAIT_PREV` after a step that stays blocked. -/
theorem rememberKeys_waitPrev :
    s.rememberKeys.waitPrev = if s.cfg.keyTrigger = .pressEdge then s.keys else s.waitPrev := by
  unfold State.rememberKeys; cases h : s.cfg.keyTrigger <;> simp

/-- `I` after a block copy. -/
theorem bumpI_i (x : RegIx) :
    (s.bumpI x).i = if s.cfg.loadStoreIncrement = .xPlusOne then wrap12 (s.i.toNat + x.toNat + 1) else s.i := by
  unfold State.bumpI; cases h : s.cfg.loadStoreIncrement <;> simp

/-- The value a wrapped write stores. -/
@[simp] theorem wrap12_toNat (n : Nat) : (wrap12 n).toNat = n % 4096 := by
  simp only [wrap12, BitVec.toNat_ofNat]; omega

/-- A wrapped value lies below 0x1000. -/
theorem wrap12_lt (n : Nat) : (wrap12 n).toNat < 0x1000 := by
  rw [wrap12_toNat]; omega

/-- The value an 8-bit write stores. -/
@[simp] theorem wrap8_toNat (n : Nat) : (wrap8 n).toNat = n % 256 := by
  simp only [wrap8, BitVec.toNat_ofNat]; omega

end Sys2Proof.Laws.State
end

