-- ==== Sys2Proof/Laws/Memory.lean ====
section
/-! SUPPORT. Memory: a read after a write, and the canonical form that every write keeps. -/

namespace Sys2Proof.Laws.Memory

open Sys2Proof.Machine

variable (base v : Byte) (m : Memory) (a c : Nat)

/-- Inserting a cell of an address no other cell has. -/
theorem read_insert (h : ∀ d ∈ m, d.1 ≠ a) :
    Memory.read base (Memory.insert (a, v) m) c = if c = a then v else Memory.read base m c := by
  induction m with
  | nil => rfl
  | cons d rest ih =>
    obtain ⟨b, w⟩ := d
    have hb : b ≠ a := h (b, w) (by simp)
    have ih' := ih fun e he => h e (by simp [he])
    unfold Memory.insert
    split
    · simp [Memory.read]
    · by_cases hcb : c = b
      · subst hcb; simp [Memory.read, hb]
      · simp [Memory.read, hcb, ih']

/-- Taking the cells of one address away leaves every other address as it was. -/
theorem read_filter :
    Memory.read base (m.filter fun d => d.1 != a) c = if c = a then base else Memory.read base m c := by
  induction m with
  | nil => simp [Memory.read]
  | cons d rest ih =>
    obtain ⟨b, w⟩ := d
    by_cases hb : b = a
    · subst hb
      by_cases hc : c = b
      · subst hc; simpa using ih
      · simpa [Memory.read, hc] using ih
    · by_cases hc : c = b
      · subst hc; simp [Memory.read, hb]
      · simp [Memory.read, hb, hc, ih]

/-- A read after a write: the value written at its address, and every other address as before, whatever the list. -/
theorem read_write :
    Memory.read base (Memory.write base m a v) c = if c = a then v else Memory.read base m c := by
  unfold Memory.write
  by_cases hv : v = base
  · subst hv; simp [read_filter]
  · have h : ∀ d ∈ m.filter (fun d => d.1 != a), d.1 ≠ a := by intro d hd; simpa using (List.mem_filter.mp hd).2
    simp only [hv, if_false]
    rw [read_insert base v _ a c h, read_filter]
    by_cases hc : c = a <;> simp [hc]

/-- What an unlisted address reads as does not matter where the address is not read. -/
theorem read_write_ne (base' : Byte) (h : c ≠ a) :
    Memory.read base' (Memory.write base m a v) c = Memory.read base' m c := by
  have hf : Memory.read base' (m.filter fun d => d.1 != a) c = Memory.read base' m c := by
    simpa [h] using read_filter base' m a c
  unfold Memory.write
  by_cases hv : v = base
  · simpa [hv] using hf
  · have hm : ∀ d ∈ m.filter (fun d => d.1 != a), d.1 ≠ a := by intro d hd; simpa using (List.mem_filter.mp hd).2
    simp only [hv, if_false]
    rw [read_insert base' v _ a c hm, hf, if_neg h]

/-- The canonical form as a proposition. -/
theorem wf_iff (f : Nat → Byte) :
    Memory.wf f m = true ↔ m.Pairwise (fun c d => c.1 < d.1) ∧ ∀ c ∈ m, c.1 < 4096 ∧ c.2 ≠ f c.1 := by
  simp [Memory.wf, List.all_eq_true]

theorem mem_insert (c d : Host.Cell) (m : Memory) : d ∈ Memory.insert c m ↔ d = c ∨ d ∈ m := by
  induction m with
  | nil => simp [Memory.insert]
  | cons e rest ih =>
    unfold Memory.insert
    split
    · simp
    · simp only [List.mem_cons, ih]; tauto

theorem pairwise_insert (c : Host.Cell) (m : Memory) (hs : m.Pairwise (fun c d => c.1 < d.1)) (hc : ∀ d ∈ m, d.1 ≠ c.1) :
    (Memory.insert c m).Pairwise (fun c d => c.1 < d.1) := by
  induction m with
  | nil => simp [Memory.insert]
  | cons e rest ih =>
    obtain ⟨he, hrest⟩ := List.pairwise_cons.mp hs
    unfold Memory.insert
    split
    · rename_i hlt
      refine List.pairwise_cons.mpr ⟨?_, hs⟩
      intro d hd
      rcases List.mem_cons.mp hd with rfl | hd
      · exact hlt
      · exact lt_trans hlt (he d hd)
    · rename_i hlt
      refine List.pairwise_cons.mpr ⟨?_, ih hrest fun d hd => hc d (by simp [hd])⟩
      intro d hd
      rcases (mem_insert c d rest).mp hd with rfl | hd
      · have := hc e (by simp); omega
      · exact he d hd

/-- A write keeps the canonical form. -/
theorem wf_write (f : Nat → Byte) (ha : a < 4096) (h : Memory.wf f m = true) :
    Memory.wf f (Memory.write (f a) m a v) = true := by
  rw [wf_iff] at h ⊢
  obtain ⟨hs, hc⟩ := h
  have hs' : (m.filter fun d => d.1 != a).Pairwise (fun c d => c.1 < d.1) := hs.filter _
  have hm : ∀ d ∈ m.filter (fun d => d.1 != a), d.1 ≠ a := by intro d hd; simpa using (List.mem_filter.mp hd).2
  have hc' : ∀ d ∈ m.filter (fun d => d.1 != a), d.1 < 4096 ∧ d.2 ≠ f d.1 := fun d hd => hc d (List.mem_filter.mp hd).1
  unfold Memory.write
  by_cases hv : v = f a
  · rw [if_pos hv]; exact ⟨hs', hc'⟩
  · simp only [hv, if_false]
    refine ⟨pairwise_insert _ _ hs' hm, ?_⟩
    intro d hd
    rcases (mem_insert _ d _).mp hd with rfl | hd
    · exact ⟨ha, hv⟩
    · exact hc' d hd

/-- The canonical form of a state's memory. -/
def Canonical (s : State) : Prop := Memory.wf (constructedByte s.cfg) s.mem = true

/-- `MemWrite` keeps the canonical form. -/
theorem writeByte_canonical (s : State) (b : Byte) (h : Canonical s) : Canonical (s.writeByte a b) :=
  wf_write b s.mem (a % 4096) (constructedByte s.cfg) (Nat.mod_lt _ (by omega)) h

/-- `MemRead` after `MemWrite`: addresses that agree modulo 4096 are one byte. -/
@[simp] theorem readByte_writeByte (s : State) (b : Byte) :
    (s.writeByte a b).readByte c = if c % 4096 = a % 4096 then b else s.readByte c := by
  unfold State.readByte
  by_cases h : c % 4096 = a % 4096
  · simp only [State.writeByte, h, if_true]
    rw [read_write]; simp
  · simp only [State.writeByte, h, if_false]
    exact read_write_ne _ b s.mem (a % 4096) (c % 4096) _ h

/-- `placeWord` keeps the canonical form. -/
theorem placeWord_canonical (s : State) (op : Word) (h : Canonical s) : Canonical (s.placeWord a op) :=
  writeByte_canonical _ _ _ (writeByte_canonical _ _ _ h)

/-- `writeBytes` keeps the canonical form. -/
theorem writeBytes_canonical (s : State) (bytes : List Byte) (h : Canonical s) : Canonical (s.writeBytes a bytes) := by
  induction bytes generalizing s a with
  | nil => exact h
  | cons b rest ih => exact ih _ _ (writeByte_canonical a s b h)

/-- `storeRegs` keeps the canonical form. -/
theorem storeRegs_canonical (s : State) (n : Nat) (h : Canonical s) : Canonical (s.storeRegs n) := by
  induction n with
  | zero => exact h
  | succ n ih => exact writeByte_canonical _ _ _ ih

/-- The reset memory is canonical. -/
theorem reset_canonical : Canonical State.reset := rfl

end Sys2Proof.Laws.Memory
end

