-- ==== Sys2Proof/Laws/Ops.lean ====
section
/-! SUPPORT. What each shared operation does, said once: block moves, fetch, stack, operand forms, timers, the key choice. -/

namespace Sys2Proof.Laws.Ops

open Sys2Proof.Machine Sys2Proof.Laws.State Sys2Proof.Laws.Memory Sys2Proof.Laws.Decode

variable (s : State)

/-! ### Blocks of memory (R304, R305, R501) -/

/-- Storing registers changes only memory. -/
theorem storeRegs_eq (n : Nat) : s.storeRegs n = { s with mem := (s.storeRegs n).mem } := by
  induction n with
  | zero => rfl
  | succ n ih => rw [State.storeRegs, ih]; rfl

/-- The bytes of a stored block: `V[k]` at `I + k`, and every other byte as before. -/
theorem storeRegs_readByte (n : Nat) (hn : n ≤ 4096) :
    (∀ k < n, (s.storeRegs n).readByte (s.effective k) = s.reg (BitVec.ofNat 4 k)) ∧
    (∀ a, (∀ k < n, a % 4096 ≠ s.effective k % 4096) → (s.storeRegs n).readByte a = s.readByte a) := by
  induction n with
  | zero => exact ⟨by simp, fun _ _ => rfl⟩
  | succ n ih =>
    obtain ⟨ih1, ih2⟩ := ih (by omega)
    constructor
    · intro k hk
      rw [State.storeRegs, readByte_writeByte]
      by_cases e : k = n
      · subst e; simp
      · have hne : s.effective k % 4096 ≠ s.effective n % 4096 := by unfold State.effective; omega
        rw [if_neg hne]
        exact ih1 k (by omega)
    · intro a ha
      rw [State.storeRegs, readByte_writeByte, if_neg (ha n (by omega))]
      exact ih2 a fun k hk => ha k (by omega)

/-- Loading registers changes only registers. -/
theorem loadRegs_eq (n : Nat) : s.loadRegs n = { s with v := (s.loadRegs n).v } := by
  induction n with
  | zero => rfl
  | succ n ih => rw [State.loadRegs, ih]; rfl

/-- The registers of a loaded block, at most all 16: `V[k]` from `I + k`, and every other register as before. -/
theorem loadRegs_reg (n : Nat) (hn : n ≤ 16) (x : RegIx) :
    (s.loadRegs n).reg x = if x.toNat < n then s.readByte (s.effective x.toNat) else s.reg x := by
  induction n with
  | zero => simp [State.loadRegs]
  | succ n ih =>
    have hx : (BitVec.ofNat 4 n).toNat = n := by rw [BitVec.toNat_ofNat]; omega
    rw [State.loadRegs, setReg_reg, ih (by omega)]
    by_cases e : x = BitVec.ofNat 4 n
    · subst e; simp [hx]
    · have hne : x.toNat ≠ n := fun h => e (BitVec.eq_of_toNat_eq (by rw [hx, h]))
      simp only [if_neg e]
      by_cases h : x.toNat < n
      · rw [if_pos h, if_pos (by omega)]
      · rw [if_neg h, if_neg (by omega)]

/-- Placing bytes changes only memory. -/
theorem writeBytes_eq (a : Nat) (bytes : List Byte) : s.writeBytes a bytes = { s with mem := (s.writeBytes a bytes).mem } := by
  induction bytes generalizing s a with
  | nil => rfl
  | cons b rest ih => rw [State.writeBytes, ih]; rfl

/-- The bytes of a placed block that does not reach past the top of memory, and every other byte as before. -/
theorem writeBytes_readByte (a : Nat) (bytes : List Byte) (c : Nat) (hb : a + bytes.length ≤ 4096) (hc : c < 4096) :
    (s.writeBytes a bytes).readByte c =
      if h : a ≤ c ∧ c < a + bytes.length then bytes[c - a]'(by omega) else s.readByte c := by
  induction bytes generalizing s a with
  | nil => rw [dif_neg (by simp)]; rfl
  | cons b rest ih =>
    have hlen : (b :: rest).length = rest.length + 1 := rfl
    rw [State.writeBytes, ih _ _ (by omega), readByte_writeByte]
    by_cases e : c = a
    · subst e
      rw [dif_neg (by omega), if_pos rfl, dif_pos (by omega)]
      simp
    · rw [if_neg (show ¬ c % 4096 = a % 4096 by omega)]
      by_cases h : a + 1 ≤ c ∧ c < a + 1 + rest.length
      · rw [dif_pos h, dif_pos (by omega)]
        have hidx : c - a = (c - (a + 1)) + 1 := by omega
        simp [hidx]
      · rw [dif_neg h, dif_neg (by omega)]

/-- The bytes of a sprite (R360). -/
@[simp] theorem readBytes_length (n : Nat) : (s.readBytes n).length = n := by simp [State.readBytes]

theorem readBytes_getElem (n r : Nat) (h : r < (s.readBytes n).length) : (s.readBytes n)[r] = s.readByte (s.effective r) := by
  simp [State.readBytes]

/-! ### Fetch (R101, R102) -/

/-- The fetch wraps each of its two addresses. -/
theorem readByte_mod (a : Nat) : s.readByte (a % 4096) = s.readByte a := by simp [State.readByte]

/-- A placed word is what a fetch of its address reads. -/
theorem fetch_placeWord (a : Nat) (op : Word) : (s.placeWord a op).fetch a = op := by
  have hne : ¬ a % 4096 = (a + 1) % 4096 := by omega
  simp [State.fetch, State.placeWord, hne]

/-- The word at `pc` depends on memory, `pc` and the configuration alone. -/
theorem fetchPc_congr {s t : State} (hm : t.mem = s.mem) (hp : t.pc = s.pc) (hc : t.cfg = s.cfg) : t.fetchPc = s.fetchPc := by
  simp only [State.fetchPc, State.fetch, State.readByte, hm, hp, hc]

/-! ### The stack (R58, R59) -/

/-- `pop()` in each case of the stack. -/
theorem pop_nil (h : s.stack = []) : s.pop = none := by simp [State.pop, h]

theorem pop_cons {top : Word} {rest : List Word} (h : s.stack = top :: rest) : s.pop = some (top, { s with stack := rest }) := by
  simp [State.pop, h]

/-! ### Operand forms (R302, R406, R411) -/

/-- A nibble operand: none exactly above 0xF under `refuse`, else the low nibble. -/
theorem nibbleOperand_eq (b : Byte) :
    s.nibbleOperand b =
      if 0xF < b.toNat ∧ s.cfg.rangePolicy = .refuse then none else some (b.extractLsb' 0 4) := by
  unfold State.nibbleOperand
  by_cases h : b.toNat ≤ 0xF
  · simp [h]
  · cases hp : s.cfg.rangePolicy <;> simp [h]

/-- The low nibble of a byte. -/
theorem lowNibble_toNat (b : Byte) : (b.extractLsb' 0 4).toNat = b.toNat % 16 := by
  simp [BitVec.extractLsb'_toNat]

/-- The lowest key of a set that has one. -/
theorem lowestKey_some (p : Fin 16 → Bool) (k : Fin 16) (hk : p k = true) (hmin : ∀ j, j < k → p j = false) :
    lowestKey p = some (BitVec.ofFin k) := by
  have h : (List.finRange 16).find? p = some k := by
    rw [List.find?_eq_some_iff_getElem]
    refine ⟨hk, k.val, by simp, by simp, fun j hj => ?_⟩
    simp [hmin ⟨j, by omega⟩ hj]
  simp [lowestKey, h]

/-- A set with no key. -/
theorem lowestKey_none (p : Fin 16 → Bool) (h : ∀ k, p k = false) : lowestKey p = none := by
  simp [lowestKey, h]

/-! ### Timers (R430) -/

/-- A timer after `n` ticks, whether or not it is at 0. -/
theorem timerAfter_eq (n : Nat) (t : Byte) : timerAfter n t = BitVec.ofNat 8 (t.toNat - n) := by
  unfold timerAfter
  split
  · rename_i h; subst h; simp
  · rfl

/-- The value of a timer after `n` ticks. -/
theorem timerAfter_toNat (n : Nat) (t : Byte) : (timerAfter n t).toNat = t.toNat - n := by
  have := t.isLt
  rw [timerAfter_eq, BitVec.toNat_ofNat]; omega

/-! ### The host's turn (R8, R431) -/

/-- A turn leaves everything but the timers, the inputs and the model's own list and count of turns. -/
theorem beginTurn_kept :
    s.beginTurn.mem = s.mem ∧ s.beginTurn.v = s.v ∧ s.beginTurn.i = s.i ∧ s.beginTurn.pc = s.pc ∧
    s.beginTurn.stack = s.stack ∧ s.beginTurn.disp = s.disp ∧ s.beginTurn.wait = s.wait ∧
    s.beginTurn.waitPrev = s.waitPrev ∧ s.beginTurn.cfg = s.cfg :=
  ⟨rfl, rfl, rfl, rfl, rfl, rfl, rfl, rfl, rfl⟩

/-! ### The cycle (R170, R455) -/

/-- The three cases of a step on latched inputs: a wait step, an illegal word, an instruction. -/
theorem cycle_cases :
    (∃ x, s.wait = some x ∧ cycle s = waitStep x s) ∨
    (s.wait = none ∧ decodeWord s.fetchPc = none ∧ cycle s = .fault (.unknownOpcode s.fetchPc s.pc)) ∨
    (∃ i, s.wait = none ∧ decodeWord s.fetchPc = some i ∧ cycle s = exec i s) := by
  unfold cycle
  cases hw : s.wait with
  | some x => exact .inl ⟨x, rfl, rfl⟩
  | none =>
    cases hd : decodeWord s.fetchPc with
    | none => exact .inr (.inl ⟨rfl, rfl, by simp [execute, hd, State.raise]⟩)
    | some i => exact .inr (.inr ⟨i, rfl, rfl, by simp [execute, hd]⟩)

end Sys2Proof.Laws.Ops
end

