-- ==== Sys2Proof/Laws/PerInstr.lean ====
section
/-! SUPPORT. For each instruction, by its constructor: its encoded word lies in its own row of the mask/match table (R160). -/

namespace Sys2Proof.Laws.TableRow

open Sys2Proof Sys2Proof.Laws.Decode

/-- The encoded word passes the test of the instruction's own row. -/
def Statement (i : Instr) : Prop := (rowOf i).accepts (encode i) = true

/-- Masking the high nibble of an address word. -/
theorem mask_encodeNNN (h : Nibble) (nnn : Addr) : encodeNNN h nnn &&& 0xF000#16 = encodeNNN h 0 := by
  apply BitVec.eq_of_getLsbD_eq; intro k hk
  rw [BitVec.getLsbD_and, getLsbD_encodeNNN, getLsbD_encodeNNN]
  interval_cases k <;> simp

/-- Masking the high nibble of a register and constant word. -/
theorem mask_encodeXKK (h : Nibble) (x : RegIx) (kk : Byte) : encodeXKK h x kk &&& 0xF000#16 = encodeXKK h 0 0 := by
  apply BitVec.eq_of_getLsbD_eq; intro k hk
  rw [BitVec.getLsbD_and, getLsbD_encodeXKK, getLsbD_encodeXKK]
  interval_cases k <;> simp

/-- Masking out the register of a word with a sub-selector byte. -/
theorem mask_encodeXSS (h : Nibble) (x : RegIx) (kk : Byte) : encodeXKK h x kk &&& 0xF0FF#16 = encodeXKK h 0 kk := by
  apply BitVec.eq_of_getLsbD_eq; intro k hk
  rw [BitVec.getLsbD_and, getLsbD_encodeXKK, getLsbD_encodeXKK]
  interval_cases k <;> simp

/-- Masking out both registers of a word with a sub-selector nibble. -/
theorem mask_encodeXYS (h : Nibble) (x y : RegIx) (n : Nibble) : encodeXYN h x y n &&& 0xF00F#16 = encodeXYN h 0 0 n := by
  apply BitVec.eq_of_getLsbD_eq; intro k hk
  rw [BitVec.getLsbD_and, getLsbD_encodeXYN, getLsbD_encodeXYN]
  interval_cases k <;> simp

/-- Masking the high nibble of a word of four nibbles. -/
theorem mask_encodeXYN (h : Nibble) (x y : RegIx) (n : Nibble) : encodeXYN h x y n &&& 0xF000#16 = encodeXYN h 0 0 0 := by
  apply BitVec.eq_of_getLsbD_eq; intro k hk
  rw [BitVec.getLsbD_and, getLsbD_encodeXYN, getLsbD_encodeXYN]
  interval_cases k <;> simp

theorem cls : Statement .cls := rfl
theorem ret : Statement .ret := rfl
theorem jp (nnn : Addr) : Statement (.jp nnn) := by simp [Statement, rowOf, OpcodeRow.accepts, encode, mask_encodeNNN]; rfl
theorem call (nnn : Addr) : Statement (.call nnn) := by simp [Statement, rowOf, OpcodeRow.accepts, encode, mask_encodeNNN]; rfl
theorem seImm (x : RegIx) (kk : Byte) : Statement (.seImm x kk) := by simp [Statement, rowOf, OpcodeRow.accepts, encode, mask_encodeXKK]; rfl
theorem sneImm (x : RegIx) (kk : Byte) : Statement (.sneImm x kk) := by simp [Statement, rowOf, OpcodeRow.accepts, encode, mask_encodeXKK]; rfl
theorem seReg (x y : RegIx) : Statement (.seReg x y) := by simp [Statement, rowOf, OpcodeRow.accepts, encode, mask_encodeXYS]; rfl
theorem ldImm (x : RegIx) (kk : Byte) : Statement (.ldImm x kk) := by simp [Statement, rowOf, OpcodeRow.accepts, encode, mask_encodeXKK]; rfl
theorem addImm (x : RegIx) (kk : Byte) : Statement (.addImm x kk) := by simp [Statement, rowOf, OpcodeRow.accepts, encode, mask_encodeXKK]; rfl
theorem ldReg (x y : RegIx) : Statement (.ldReg x y) := by simp [Statement, rowOf, OpcodeRow.accepts, encode, mask_encodeXYS]; rfl
theorem orReg (x y : RegIx) : Statement (.orReg x y) := by simp [Statement, rowOf, OpcodeRow.accepts, encode, mask_encodeXYS]; rfl
theorem andReg (x y : RegIx) : Statement (.andReg x y) := by simp [Statement, rowOf, OpcodeRow.accepts, encode, mask_encodeXYS]; rfl
theorem xorReg (x y : RegIx) : Statement (.xorReg x y) := by simp [Statement, rowOf, OpcodeRow.accepts, encode, mask_encodeXYS]; rfl
theorem addReg (x y : RegIx) : Statement (.addReg x y) := by simp [Statement, rowOf, OpcodeRow.accepts, encode, mask_encodeXYS]; rfl
theorem subReg (x y : RegIx) : Statement (.subReg x y) := by simp [Statement, rowOf, OpcodeRow.accepts, encode, mask_encodeXYS]; rfl
theorem shr (x y : RegIx) : Statement (.shr x y) := by simp [Statement, rowOf, OpcodeRow.accepts, encode, mask_encodeXYS]; rfl
theorem subnReg (x y : RegIx) : Statement (.subnReg x y) := by simp [Statement, rowOf, OpcodeRow.accepts, encode, mask_encodeXYS]; rfl
theorem shl (x y : RegIx) : Statement (.shl x y) := by simp [Statement, rowOf, OpcodeRow.accepts, encode, mask_encodeXYS]; rfl
theorem sneReg (x y : RegIx) : Statement (.sneReg x y) := by simp [Statement, rowOf, OpcodeRow.accepts, encode, mask_encodeXYS]; rfl
theorem ldI (nnn : Addr) : Statement (.ldI nnn) := by simp [Statement, rowOf, OpcodeRow.accepts, encode, mask_encodeNNN]; rfl
theorem jpV0 (nnn : Addr) : Statement (.jpV0 nnn) := by simp [Statement, rowOf, OpcodeRow.accepts, encode, mask_encodeNNN]; rfl
theorem rnd (x : RegIx) (kk : Byte) : Statement (.rnd x kk) := by simp [Statement, rowOf, OpcodeRow.accepts, encode, mask_encodeXKK]; rfl
theorem drw (x y : RegIx) (n : Nibble) : Statement (.drw x y n) := by simp [Statement, rowOf, OpcodeRow.accepts, encode, mask_encodeXYN]; rfl
theorem skp (x : RegIx) : Statement (.skp x) := by simp [Statement, rowOf, OpcodeRow.accepts, encode, mask_encodeXSS]; rfl
theorem sknp (x : RegIx) : Statement (.sknp x) := by simp [Statement, rowOf, OpcodeRow.accepts, encode, mask_encodeXSS]; rfl
theorem ldVxDt (x : RegIx) : Statement (.ldVxDt x) := by simp [Statement, rowOf, OpcodeRow.accepts, encode, mask_encodeXSS]; rfl
theorem ldVxK (x : RegIx) : Statement (.ldVxK x) := by simp [Statement, rowOf, OpcodeRow.accepts, encode, mask_encodeXSS]; rfl
theorem ldDtVx (x : RegIx) : Statement (.ldDtVx x) := by simp [Statement, rowOf, OpcodeRow.accepts, encode, mask_encodeXSS]; rfl
theorem ldStVx (x : RegIx) : Statement (.ldStVx x) := by simp [Statement, rowOf, OpcodeRow.accepts, encode, mask_encodeXSS]; rfl
theorem addIVx (x : RegIx) : Statement (.addIVx x) := by simp [Statement, rowOf, OpcodeRow.accepts, encode, mask_encodeXSS]; rfl
theorem ldFVx (x : RegIx) : Statement (.ldFVx x) := by simp [Statement, rowOf, OpcodeRow.accepts, encode, mask_encodeXSS]; rfl
theorem ldBVx (x : RegIx) : Statement (.ldBVx x) := by simp [Statement, rowOf, OpcodeRow.accepts, encode, mask_encodeXSS]; rfl
theorem ldMemVx (x : RegIx) : Statement (.ldMemVx x) := by simp [Statement, rowOf, OpcodeRow.accepts, encode, mask_encodeXSS]; rfl
theorem ldVxMem (x : RegIx) : Statement (.ldVxMem x) := by simp [Statement, rowOf, OpcodeRow.accepts, encode, mask_encodeXSS]; rfl

end Sys2Proof.Laws.TableRow
end

