-- ==== Sys2Proof/Laws/Session.lean ====
section
/-! SUPPORT. What one move of the host can do to a session, said once, and the induction over a sequence of moves. -/

namespace Sys2Proof.Laws.Session

open Sys2Proof.Machine Sys2Proof.Laws.State Sys2Proof.Laws.Ops

/-- A step on given inputs faults only where no wait is pending (R455). -/
theorem coreStep_fault_wait {s : State} {ks : Keys} {r : Byte} {f : Fault} (h : coreStep ks r s = .fault f) : s.wait = none := by
  cases hw : s.wait with
  | none => rfl
  | some x => simp [coreStep, cycle, hw, waitStep] at h

/-- The outcome of a step that answers a next state is Waiting exactly when that state waits (R450). -/
theorem stepOutcome_waiting (t : State) : t.stepOutcome = .waiting ↔ t.wait.isSome = true := by
  unfold State.stepOutcome
  split <;> simp_all

/-- A step that answers a next state has not faulted. -/
theorem stepOutcome_ne_fault (t : State) (f : Fault) : t.stepOutcome ≠ .fault f := by
  unfold State.stepOutcome
  split <;> exact fun h => nomatch h

/-- A step of a session: a next state of the machine, or a fault that leaves the machine as it was (R452, R454). -/
theorem step_cases {σ τ : Session} {ks : Keys} {r : Byte} (h : σ.step ks r = .session τ) :
    (∃ t, coreStep ks r σ.machine = .next t ∧ τ = { σ with machine := t, last := some t.stepOutcome }) ∨
    (∃ f, coreStep ks r σ.machine = .fault f ∧
      τ = { σ with last := some (.fault f), faultMark := some (σ.faultMark.getD f) }) := by
  unfold Session.step at h
  split at h <;> cases h
  · exact .inl ⟨_, ‹_›, rfl⟩
  · exact .inr ⟨_, ‹_›, rfl⟩

/-- A skip that is defined: the most recent step faulted in a way that may be skipped, and only `pc` moves (R462). -/
theorem skip_cases {σ τ : Session} (h : σ.skip = .session τ) :
    ∃ f, σ.last = some (.fault f) ∧ f.skippable = true ∧ τ = { σ with machine := σ.machine.advance } := by
  unfold Session.skip at h
  split at h
  · rename_i f hl
    split at h
    · exact ⟨f, hl, ‹_›, by cases h; rfl⟩
    · cases h
  · cases h

/-- The moves that leave a session: a step, ticks, an observation, a skip (R461). -/
theorem move_cases {op : HostOp} {σ τ : Session} (h : σ.move op = .session τ) :
    (∃ ks r, op = .step ks r ∧ σ.step ks r = .session τ) ∨
    (op = .tick ∧ τ = { σ with machine := σ.machine.tick }) ∨
    ((op = .snapshot ∨ op = .soundActive) ∧ τ = σ) ∨
    (op = .skip ∧ σ.skip = .session τ) := by
  cases op with
  | step ks r => exact .inl ⟨ks, r, rfl, h⟩
  | tick => cases h; exact .inr (.inl ⟨rfl, rfl⟩)
  | snapshot => cases h; exact .inr (.inr (.inl ⟨.inl rfl, rfl⟩))
  | soundActive => cases h; exact .inr (.inr (.inl ⟨.inr rfl, rfl⟩))
  | skip => exact .inr (.inr (.inr ⟨rfl, h⟩))
  | discard => cases h

/-- What every move keeps, every sequence of moves keeps. -/
theorem run_keeps {P : Session → Prop} (hP : ∀ op σ τ, P σ → σ.move op = .session τ → P τ) (ops : List HostOp) :
    ∀ {σ τ : Session}, P σ → Session.run ops σ = .session τ → P τ := by
  induction ops with
  | nil => intro σ τ hσ h; cases h; exact hσ
  | cons op rest ih =>
    intro σ τ hσ h
    unfold Session.run at h
    split at h
    · exact ih (hP op σ _ hσ ‹_›) h
    · rename_i hne; exact absurd h (hne τ)

end Sys2Proof.Laws.Session
end

