-- ==== Sys2Proof/Laws/Surface.lean ====
section
/-! SUPPORT. The display: one pixel after a toggle, and what the XOR blit does to every pixel. -/

namespace Sys2Proof.Laws.Surface

open Sys2Proof.Machine

/-- A pixel after a toggle of one. -/
@[simp] theorem pix_toggle (d : Display) (px py qx qy : Nat) :
    Display.pix (Display.toggle d px py) qx qy =
      (Display.pix d qx qy ^^ (decide (qx % 64 = px % 64) && decide (qy % 32 = py % 32))) := by
  unfold Display.pix Display.toggle
  by_cases hy : qy % 32 = py % 32
  · have hp : px % 64 < 64 := Nat.mod_lt _ (by omega)
    simp [hy, hp, eq_comm]
  · rw [Vector.getElem_set_ne _ _ (fun e => hy e.symm)]
    simp [hy]

/-- Every pixel of the cleared display is 0. -/
@[simp] theorem pix_cleared (px py : Nat) : Display.pix Display.cleared px py = false := by
  simp [Display.pix, Display.cleared]

/-- The first `c` columns of a row of the sprite `b` drawn at `(x0, y)` have a 1 bit over `(px, py)`. -/
def rowCovers (b : Byte) (x0 y c px py : Nat) : Prop :=
  ∃ k < c, (x0 + k) % 64 = px % 64 ∧ y % 32 = py % 32 ∧ b.getLsbD (7 - k) = true

/-- The sprite `rows` drawn at `(x0, y0)` has a 1 bit over `(px, py)`. -/
def spriteBitAt (rows : List Byte) (x0 y0 px py : Nat) : Prop :=
  ∃ r, ∃ h : r < rows.length, rowCovers rows[r] x0 (y0 + r) 8 px py

/-- What a draw does: the pixels it covers toggle, the others stay, and there is a collision exactly if there was one before
or a covered pixel was set. -/
structure Draws (a b : Drawn) (covers : Nat → Nat → Prop) : Prop where
  pix : ∀ px py, Display.pix b.disp px py ≠ Display.pix a.disp px py ↔ covers px py
  collision : b.collision = true ↔ a.collision = true ∨ ∃ px py, covers px py ∧ Display.pix a.disp px py = true

/-- Coordinates count modulo 64 and 32. -/
theorem pix_congr (d : Display) {px py qx qy : Nat} (hx : px % 64 = qx % 64) (hy : py % 32 = qy % 32) :
    Display.pix d px py = Display.pix d qx qy := by
  simp only [Display.pix, hx, hy]

/-- A draw that covers nothing. -/
theorem draws_refl (a : Drawn) : Draws a a fun _ _ => False :=
  ⟨fun _ _ => by simp, by simp⟩

/-- Two draws one after the other that never cover the same pixel. -/
theorem draws_trans {a b c : Drawn} {p q : Nat → Nat → Prop} (hab : Draws a b p) (hbc : Draws b c q)
    (disjoint : ∀ px py, p px py → ¬ q px py) : Draws a c fun px py => p px py ∨ q px py := by
  have hp : ∀ px py, q px py → Display.pix b.disp px py = Display.pix a.disp px py := by
    intro px py hq
    by_contra hne
    exact disjoint px py ((hab.pix px py).mp hne) hq
  constructor
  · intro px py
    constructor
    · intro hne
      by_cases hq : Display.pix c.disp px py = Display.pix b.disp px py
      · exact .inl ((hab.pix px py).mp (hq ▸ hne))
      · exact .inr ((hbc.pix px py).mp hq)
    · rintro (h | h)
      · have hq : Display.pix c.disp px py = Display.pix b.disp px py := by
          by_contra hne
          exact disjoint px py h ((hbc.pix px py).mp hne)
        rw [hq]
        exact (hab.pix px py).mpr h
      · rw [← hp px py h]
        exact (hbc.pix px py).mpr h
  · rw [hbc.collision, hab.collision]
    constructor
    · rintro ((h | ⟨px, py, h, hset⟩) | ⟨px, py, h, hset⟩)
      · exact .inl h
      · exact .inr ⟨px, py, .inl h, hset⟩
      · exact .inr ⟨px, py, .inr h, by rw [← hp px py h]; exact hset⟩
    · rintro (h | ⟨px, py, h | h, hset⟩)
      · exact .inl (.inl h)
      · exact .inl (.inr ⟨px, py, h, hset⟩)
      · exact .inr ⟨px, py, h, by rw [hp px py h]; exact hset⟩

/-- The same pixels covered, said in another way. -/
theorem Draws.congr {a b : Drawn} {p q : Nat → Nat → Prop} (h : Draws a b p) (hpq : ∀ px py, p px py ↔ q px py) :
    Draws a b q := by
  have e : p = q := by funext px py; exact propext (hpq px py)
  exact e ▸ h

/-- One sprite bit. -/
theorem draws_bit (a : Drawn) (b : Bool) (x y : Nat) :
    Draws a (a.bit b x y) fun px py => x % 64 = px % 64 ∧ y % 32 = py % 32 ∧ b = true := by
  cases b with
  | false => exact (draws_refl a).congr (by simp)
  | true =>
    constructor
    · intro px py
      simp only [Drawn.bit, if_true, pix_toggle]
      by_cases hx : x % 64 = px % 64 <;> by_cases hy : y % 32 = py % 32 <;>
        cases Display.pix a.disp px py <;> simp [hx, hy, Ne.symm]
    · simp only [Drawn.bit, if_true, Bool.or_eq_true]
      constructor
      · rintro (h | h)
        · exact .inl h
        · exact .inr ⟨x, y, ⟨rfl, rfl, trivial⟩, h⟩
      · rintro (h | ⟨px, py, ⟨hx, hy, -⟩, h⟩)
        · exact .inl h
        · exact .inr (by rw [pix_congr a.disp hx hy]; exact h)

/-- The first `c` columns of a row, at most the 64 columns of the display. -/
theorem draws_row (a : Drawn) (b : Byte) (x0 y c : Nat) (hc : c ≤ 64) : Draws a (a.row b x0 y c) (rowCovers b x0 y c) := by
  induction c with
  | zero => exact (draws_refl a).congr (by simp [rowCovers])
  | succ c ih =>
    refine (draws_trans (ih (by omega)) (draws_bit (a.row b x0 y c) (b.getLsbD (7 - c)) (x0 + c) y) ?_).congr ?_
    · rintro px py ⟨k, hk, hx, -, -⟩ ⟨hx', -, -⟩
      omega
    · intro px py
      constructor
      · rintro (⟨k, hk, h⟩ | h)
        · exact ⟨k, by omega, h⟩
        · exact ⟨c, by omega, h⟩
      · rintro ⟨k, hk, h⟩
        by_cases e : k = c
        · exact .inr (e ▸ h)
        · exact .inl ⟨k, by omega, h⟩

/-- The rows of a sprite, at most the 32 rows of the display. -/
theorem draws_rows (rows : List Byte) (a : Drawn) (x0 y0 : Nat) (hn : rows.length ≤ 32) :
    Draws a (a.rows x0 y0 rows) (spriteBitAt rows x0 y0) := by
  induction rows generalizing a y0 with
  | nil => exact (draws_refl a).congr (by simp [spriteBitAt])
  | cons b rest ih =>
    have hlen : rest.length + 1 ≤ 32 := hn
    refine (draws_trans (draws_row a b x0 y0 8 (by omega)) (ih (a.row b x0 y0 8) (y0 + 1) (by omega)) ?_).congr ?_
    · rintro px py ⟨k, -, -, hy, -⟩ ⟨r, hr, k', -, -, hy', -⟩
      omega
    · intro px py
      constructor
      · rintro (h | ⟨r, hr, h⟩)
        · exact ⟨0, by simp, h⟩
        · exact ⟨r + 1, by simp; omega, by simpa [show y0 + (r + 1) = y0 + 1 + r by omega] using h⟩
      · rintro ⟨r, hr, h⟩
        cases r with
        | zero => exact .inl h
        | succ r => exact .inr ⟨r, by simpa using hr, by simpa [show y0 + (r + 1) = y0 + 1 + r by omega] using h⟩

/-- `blit` (R354): with at most 32 rows it toggles exactly the pixels under a 1 bit of the sprite, and collides exactly when one
of them was set. -/
theorem blit_draws (d : Display) (x0 y0 : Nat) (rows : List Byte) (hn : rows.length ≤ 32) :
    Draws { disp := d, collision := false } (blit d x0 y0 rows) (spriteBitAt rows x0 y0) :=
  draws_rows rows _ x0 y0 hn

end Sys2Proof.Laws.Surface
end

