-- ==== Sys2Proof/Tests/Slice0.lean ====
section
/-! SUPPORT. Tests: every expected value is from 95_test_vectors.md (its id stands in the comment) or from the rule named. -/

namespace Sys2Proof.Tests

open Sys2Proof Sys2Proof.Machine Sys2Proof.Safety

/-! ### Helpers -/

/-- A configuration with the default font. -/
def cfg (ss : ShiftSource) (li : LoadStoreIncrement) (kt : KeyTrigger) (rp : RangePolicy) : Config :=
  { defaultConfig with shiftSource := ss, loadStoreIncrement := li, keyTrigger := kt, rangePolicy := rp }

/-- The construction state of the default configuration under the level trigger. -/
def base : State := State.blank (cfg .vx .unchanged .level .refuse)

/-- The construction state with every parameter at its other value. -/
def other : State := State.blank (cfg .vy .xPlusOne .pressEdge .mask)

/-- The keys of a list pressed. -/
def pressed (ks : List Nat) : Keys := Vector.ofFn fun i => ks.contains i.val

/-- One step of the core with the word `op` at `pc`. -/
def one (op : Word) (s : State) (keys : Keys := noKeys) (draw : Byte := 0x00#8) : Answer := coreStep keys draw (s.fetchNext op)

/-- What `f` shows of the next state. -/
def see {α : Type} (f : State → α) : Answer → Option α
  | .next t => some (f t)
  | .fault _ => none
  | .refused _ => none

/-- The fault an answer is. -/
def faultOf : Answer → Option Fault
  | .next _ => none
  | .fault r => some r
  | .refused _ => none

/-- The value of a register and of `VF`, and `pc`. -/
def regs (x : RegIx) (t : State) : Byte × Byte × Word := (t.reg x, t.reg vf, t.pc)

/-! ### Well-formedness: a term each check refuses -/

theorem test_wf_font_past_rom_refused : Config.wellFormed { defaultConfig with fontBase := 0x1B1#12 } = false := by decide
theorem test_wf_font_highest_accepted : Config.wellFormed { defaultConfig with fontBase := 0x1B0#12 } = true := by decide
theorem test_wf_rom_3585_refused : romFits (List.replicate 3585 0x00#8) = false := by
  simp only [romFits, List.length_replicate]; decide
theorem test_wf_rom_3584_accepted : romFits (List.replicate 3584 0x00#8) = true := by
  simp only [romFits, List.length_replicate]; decide

/-! ### Decoding: words written out from 30_encoding.md R160, every constructor -/

theorem test_decode_control :
    decodeWord 0x00E0#16 = some .cls ∧ decodeWord 0x00EE#16 = some .ret ∧ decodeWord 0x1234#16 = some (.jp 0x234#12) ∧
    decodeWord 0x2300#16 = some (.call 0x300#12) ∧ decodeWord 0x3342#16 = some (.seImm 0x3#4 0x42#8) ∧
    decodeWord 0x4343#16 = some (.sneImm 0x3#4 0x43#8) ∧ decodeWord 0x5120#16 = some (.seReg 0x1#4 0x2#4) ∧
    decodeWord 0x9120#16 = some (.sneReg 0x1#4 0x2#4) ∧ decodeWord 0xBF80#16 = some (.jpV0 0xF80#12) := by decide

theorem test_decode_alu :
    decodeWord 0x600A#16 = some (.ldImm 0x0#4 0x0A#8) ∧ decodeWord 0x7310#16 = some (.addImm 0x3#4 0x10#8) ∧
    decodeWord 0x8010#16 = some (.ldReg 0x0#4 0x1#4) ∧ decodeWord 0x8A11#16 = some (.orReg 0xA#4 0x1#4) ∧
    decodeWord 0x8012#16 = some (.andReg 0x0#4 0x1#4) ∧ decodeWord 0x8013#16 = some (.xorReg 0x0#4 0x1#4) ∧
    decodeWord 0x8F14#16 = some (.addReg 0xF#4 0x1#4) ∧ decodeWord 0x8015#16 = some (.subReg 0x0#4 0x1#4) ∧
    decodeWord 0x8236#16 = some (.shr 0x2#4 0x3#4) ∧ decodeWord 0x8017#16 = some (.subnReg 0x0#4 0x1#4) ∧
    decodeWord 0x823E#16 = some (.shl 0x2#4 0x3#4) ∧ decodeWord 0xC30F#16 = some (.rnd 0x3#4 0x0F#8) := by decide

theorem test_decode_index_display :
    decodeWord 0xA300#16 = some (.ldI 0x300#12) ∧ decodeWord 0xF21E#16 = some (.addIVx 0x2#4) ∧
    decodeWord 0xF129#16 = some (.ldFVx 0x1#4) ∧ decodeWord 0xF033#16 = some (.ldBVx 0x0#4) ∧
    decodeWord 0xF255#16 = some (.ldMemVx 0x2#4) ∧ decodeWord 0xF265#16 = some (.ldVxMem 0x2#4) ∧
    decodeWord 0xD01F#16 = some (.drw 0x0#4 0x1#4 0xF#4) := by decide

theorem test_decode_timers_keys :
    decodeWord 0xF307#16 = some (.ldVxDt 0x3#4) ∧ decodeWord 0xFF0A#16 = some (.ldVxK 0xF#4) ∧
    decodeWord 0xF015#16 = some (.ldDtVx 0x0#4) ∧ decodeWord 0xF018#16 = some (.ldStVx 0x0#4) ∧
    decodeWord 0xE59E#16 = some (.skp 0x5#4) ∧ decodeWord 0xE5A1#16 = some (.sknp 0x5#4) := by decide

-- L2-E1 to L2-E8
theorem test_decode_illegal :
    decodeWord 0x0000#16 = none ∧ decodeWord 0x0123#16 = none ∧ decodeWord 0x00E1#16 = none ∧ decodeWord 0x5121#16 = none ∧
    decodeWord 0x8128#16 = none ∧ decodeWord 0x800F#16 = none ∧ decodeWord 0x9121#16 = none ∧ decodeWord 0xE1A0#16 = none ∧
    decodeWord 0xF1FF#16 = none := by decide

theorem test_decode_bytes :
    decode [0xD0#8, 0x15#8, 0x7F#8] = .ok (.drw 0x0#4 0x1#4 0x5#4, [0x7F#8]) ∧ decode [0xD0#8] = .error .truncated ∧
    decode [0x51#8, 0x21#8] = .error (.unknownOpcode 0x5121#16) := by decide

theorem test_decode_table_word : decodeTableWord 16 0x8006 = some (.shr 0x0#4 0x0#4) := by decide

/-! ### The instruction cycle -/

-- L2-E9: the fetch at 0xFFF takes its low byte from 0x000
theorem test_fetch_across_the_top : see (regs 0x0#4) (one 0x602A#16 (base.setPc 0xFFF)) = some (0x2A#8, 0x00#8, 0x001#16) := by
  decide

-- L2-F1, L2-F3: decoding comes first, and the word and its address are recorded
theorem test_illegal_word_faults :
    faultOf (one 0xE1A0#16 (base.setReg 0x1#4 0x13#8)) = some (.unknownOpcode 0xE1A0#16 0x0200#16) := by decide

-- the host's written-out turn: 2 ticks, then the step with its key 3 and its draw (R431, R8)
theorem test_turn_ticks_before_the_step :
    see (fun t => (t.reg 0x3#4, t.dt, t.rnd, t.turns))
      (step ({ base with dt := 0x3C#8, turns := [⟨2, noKeys, 0xA5#8⟩] }.fetchNext 0xF307#16)) =
      some (0x3A#8, 0x3A#8, 0xA5#8, []) := by decide

-- the host's question: the placed word is the next instruction, although a wait was pending
theorem test_withFetchWord_runs :
    see (fun t => (t.pc, t.wait)) (step ((base.setWait (some 0x0#4)).withFetchWord 16 0x1234)) = some (0x0234#16, none) := by
  decide

/-! ### Control transfer -/

-- L2-C1, L2-C5
theorem test_call_pushes_next :
    see (fun t => (t.stack, t.pc)) (one 0x2300#16 (base.setPc 0x204)) = some ([0x0206#16], 0x0300#16) ∧
    see (fun t => (t.stack, t.pc)) (one 0x2300#16 (base.setPc 0xFFE)) = some ([0x0000#16], 0x0300#16) := by decide

-- L2-C4
theorem test_call_overflows :
    faultOf (one 0x2400#16 { base with stack := List.replicate 16 0x0202#16 }) = some (.stackOverflow 0x2400#16 0x0200#16) := by
  decide

-- L2-C2
theorem test_ret_pops :
    see (fun t => (t.stack, t.pc)) (one 0x00EE#16 { base with pc := 0x310#16, stack := [0x0206#16] }) = some ([], 0x0206#16) := by
  decide

-- L2-C3
theorem test_ret_underflows : faultOf (one 0x00EE#16 base) = some (.stackUnderflow 0x00EE#16 0x0200#16) := by decide

-- L2-C6
theorem test_jp_odd : see State.pc (one 0x1201#16 base) = some 0x0201#16 := by decide

-- L2-C7
theorem test_seImm :
    see State.pc (one 0x3342#16 (base.setReg 0x3#4 0x42#8)) = some 0x0204#16 ∧
    see State.pc (one 0x3342#16 ((base.setReg 0x3#4 0x42#8).setPc 0xFFC)) = some 0x0000#16 := by decide

-- L2-C8
theorem test_sneImm :
    see State.pc (one 0x4342#16 (base.setReg 0x3#4 0x42#8)) = some 0x0202#16 ∧
    see State.pc (one 0x4300#16 (base.setReg 0x3#4 0x42#8)) = some 0x0204#16 := by decide

-- L2-C9
theorem test_seReg :
    see State.pc (one 0x5110#16 (base.setReg 0x1#4 0x07#8)) = some 0x0204#16 ∧
    see State.pc (one 0x5120#16 (base.setReg 0x1#4 0x07#8)) = some 0x0202#16 := by decide

-- L2-C10
theorem test_sneReg :
    see State.pc (one 0x9110#16 (base.setReg 0x1#4 0x07#8)) = some 0x0202#16 ∧
    see State.pc (one 0x9120#16 (base.setReg 0x1#4 0x07#8)) = some 0x0204#16 := by decide

-- L2-C11
theorem test_jpV0 :
    see State.pc (one 0xB300#16 (base.setReg 0x0#4 0x10#8)) = some 0x0310#16 ∧
    see State.pc (one 0xBFFF#16 (base.setReg 0x0#4 0xFF#8)) = some 0x00FE#16 := by decide

/-! ### Register loads and arithmetic -/

-- L2-A1
theorem test_ldImm : see (regs 0xF#4) (one 0x6F07#16 base) = some (0x07#8, 0x07#8, 0x0202#16) := by decide

-- L2-A2
theorem test_addImm_wraps :
    see (regs 0x0#4) (one 0x7001#16 ((base.setReg 0x0#4 0xFF#8).setReg vf 0x55#8)) = some (0x00#8, 0x55#8, 0x0202#16) := by decide

-- L2-A4
theorem test_ldReg :
    see (regs 0x0#4) (one 0x8010#16 ((base.setReg 0x1#4 0x33#8).setReg vf 0x55#8)) = some (0x33#8, 0x55#8, 0x0202#16) := by decide

-- L2-A5 to L2-A7: two registers and VF
def three (a b f : Byte) : State := ((base.setReg 0x0#4 a).setReg 0x1#4 b).setReg vf f

theorem test_orReg : see (regs 0x0#4) (one 0x8011#16 (three 0xF0#8 0x0F#8 0x55#8)) = some (0xFF#8, 0x55#8, 0x0202#16) := by decide
theorem test_andReg : see (regs 0x0#4) (one 0x8012#16 (three 0xF0#8 0x3C#8 0x55#8)) = some (0x30#8, 0x55#8, 0x0202#16) := by decide
theorem test_xorReg : see (regs 0x0#4) (one 0x8013#16 (three 0xFF#8 0x0F#8 0x55#8)) = some (0xF0#8, 0x55#8, 0x0202#16) := by decide

-- L2-A9 (b), (c)
theorem test_addReg_carry :
    see (regs 0x0#4) (one 0x8014#16 (three 0xFF#8 0x01#8 0x00#8)) = some (0x00#8, 0x01#8, 0x0202#16) ∧
    see (regs 0x0#4) (one 0x8014#16 (three 0x0A#8 0x05#8 0x01#8)) = some (0x0F#8, 0x00#8, 0x0202#16) := by decide

-- L2-A11, L2-A12: VF as destination and as source
theorem test_addReg_vf :
    see (regs vf) (one 0x8F14#16 (three 0x00#8 0xFF#8 0x01#8)) = some (0x01#8, 0x01#8, 0x0202#16) ∧
    see (regs 0x0#4) (one 0x80F4#16 (three 0xFF#8 0x00#8 0x01#8)) = some (0x00#8, 0x01#8, 0x0202#16) := by decide

-- L2-A13
theorem test_subReg :
    see (regs 0x0#4) (one 0x8015#16 (three 0x05#8 0x07#8 0x01#8)) = some (0xFE#8, 0x00#8, 0x0202#16) ∧
    see (regs 0x0#4) (one 0x8015#16 (three 0x05#8 0x05#8 0x00#8)) = some (0x00#8, 0x01#8, 0x0202#16) := by decide

-- L2-A15, L2-A16
theorem test_shr :
    see (regs 0x2#4) (one 0x8206#16 (base.setReg 0x2#4 0x05#8)) = some (0x02#8, 0x01#8, 0x0202#16) ∧
    see (regs 0x2#4) (one 0x8236#16 (other.setReg 0x3#4 0x81#8)) = some (0x40#8, 0x01#8, 0x0202#16) := by decide

-- L2-A18
theorem test_subnReg :
    see (regs 0x0#4) (one 0x8017#16 (three 0x05#8 0x07#8 0x00#8)) = some (0x02#8, 0x01#8, 0x0202#16) ∧
    see (regs 0x0#4) (one 0x8017#16 (three 0x07#8 0x05#8 0x01#8)) = some (0xFE#8, 0x00#8, 0x0202#16) := by decide

-- L2-A19, L2-A20
theorem test_shl :
    see (regs 0x2#4) (one 0x820E#16 (base.setReg 0x2#4 0x81#8)) = some (0x02#8, 0x01#8, 0x0202#16) ∧
    see (regs 0x2#4) (one 0x823E#16 ((other.setReg 0x2#4 0x01#8).setReg 0x3#4 0xC0#8)) =
      some (0x80#8, 0x01#8, 0x0202#16) := by decide

-- L2-A21
theorem test_rnd : see (regs 0x3#4) (one 0xC30F#16 base noKeys 0xA5#8) = some (0x05#8, 0x00#8, 0x0202#16) := by decide

/-! ### Index register, loads and stores -/

-- L2-M1
theorem test_ldI : see State.i (one 0xAFFF#16 base) = some 0x0FFF#16 := by decide

-- L2-M4, L2-M5
theorem test_addIVx :
    see State.i (one 0xF01E#16 ((base.setI 0xFF0).setReg 0x0#4 0x20#8)) = some 0x0010#16 ∧
    see (fun t => (t.i, t.reg vf)) (one 0xFF1E#16 ((base.setI 0x100).setReg vf 0x22#8)) = some (0x0122#16, 0x22#8) := by decide

-- L2-M6, L2-M8
theorem test_ldFVx :
    see State.i (one 0xF129#16 (base.setReg 0x1#4 0x0F#8)) = some 0x009B#16 ∧
    see State.i (one 0xF129#16 (other.setReg 0x1#4 0x1A#8)) = some 0x0082#16 := by decide

-- L2-M7
theorem test_ldFVx_refuses :
    faultOf (one 0xF129#16 (base.setReg 0x1#4 0x10#8)) = some (.outOfSpec 0xF129#16 0x0200#16) := by decide

-- L2-M11: the digits wrap past the top
theorem test_ldBVx :
    see (fun t => (t.readByte 0xFFE, t.readByte 0xFFF, t.readByte 0x000)) (one 0xF033#16 ((base.setI 0xFFE).setReg 0x0#4 123#8)) =
      some (0x01#8, 0x02#8, 0x03#8) := by decide

-- L2-M13: only V0 is stored
theorem test_ldMemVx_one :
    see (fun t => (t.readByte 0x300, t.readByte 0x301, t.i)) (one 0xF055#16 ((three 0x77#8 0x88#8 0x00#8).setI 0x300)) =
      some (0x77#8, 0x00#8, 0x0300#16) := by decide

-- L2-M14 under x_plus_1
theorem test_ldMemVx_wraps :
    see (fun t => (t.readByte 0xFFF, t.readByte 0x000, t.i))
      (one 0xF155#16 (((other.setReg 0x0#4 0xAA#8).setReg 0x1#4 0xBB#8).setI 0xFFF)) =
      some (0xAA#8, 0xBB#8, 0x0001#16) := by decide

-- L2-M16: V3 keeps its value
theorem test_ldVxMem :
    see (fun t => (t.reg 0x0#4, t.reg 0x2#4, t.reg 0x3#4, t.i))
      (one 0xF265#16 (((base.writeBytes 0x300 [0x02#8, 0x05#8, 0x04#8]).setReg 0x3#4 0x09#8).setI 0x300)) =
      some (0x02#8, 0x04#8, 0x09#8, 0x0300#16) := by decide

-- L2-M18: the font is readable
theorem test_ldVxMem_font :
    see (fun t => (t.reg 0x0#4, t.reg 0x1#4, t.reg 0x4#4)) (one 0xF465#16 (base.setI 0x050)) =
      some (0xF0#8, 0x90#8, 0xF0#8) := by decide

/-! ### Display -/

-- L2-D9
theorem test_cls :
    see (fun t => (Display.pix t.disp 5 5, t.reg vf)) (one 0x00E0#16 ((base.setDisp (Display.toggle base.disp 5 5)).setReg vf 0x55#8)) =
      some (false, 0x55#8) := by decide

-- L2-D2: a sprite row wraps at the right edge
theorem test_drw_wraps :
    see (fun t => (Display.pix t.disp 61 0, Display.pix t.disp 62 0, Display.pix t.disp 5 0, Display.pix t.disp 6 0, t.reg vf))
      (one 0xD011#16 (((base.writeByte 0x300 0xFF#8).setI 0x300).setReg 0x0#4 62#8)) =
      some (false, true, true, false, 0x00#8) := by decide

-- L2-D6: both pixels are erased, and that is a collision
theorem test_drw_collides :
    see (fun t => (Display.pix t.disp 0 0, Display.pix t.disp 1 0, t.reg vf))
      (one 0xD011#16 (((base.writeByte 0x300 0xC0#8).setI 0x300).setDisp (Display.toggle (Display.toggle base.disp 0 0) 1 0))) =
      some (false, false, 0x01#8) := by decide

/-! ### Timers and keys -/

-- L2-T3
theorem test_ldVxDt : see (regs 0x3#4) (one 0xF307#16 (base.setDt 0x3C#8)) = some (0x3C#8, 0x00#8, 0x0202#16) := by decide

-- L2-T4
theorem test_ldDtVx : see State.dt (one 0xF015#16 (base.setDt 0x09#8)) = some 0x00#8 := by decide

-- L2-T2
theorem test_ldStVx : see State.st (one 0xF018#16 (base.setReg 0x0#4 0x02#8)) = some 0x02#8 := by decide

-- L2-T1
theorem test_tick : (base.setSt 0x03#8).tick.st = 0x02#8 ∧ (base.setSt 0x03#8).tick.dt = 0x00#8 := by decide

-- L2-K1, L2-K3
theorem test_skp :
    see State.pc (one 0xE59E#16 (base.setReg 0x5#4 0x03#8) (pressed [3])) = some 0x0204#16 ∧
    see State.pc (one 0xE59E#16 (other.setReg 0x5#4 0x13#8) (pressed [3])) = some 0x0204#16 := by decide

theorem test_skp_refuses :
    faultOf (one 0xE59E#16 (base.setReg 0x5#4 0x13#8) (pressed [3])) = some (.outOfSpec 0xE59E#16 0x0200#16) := by decide

-- L2-K2
theorem test_sknp :
    see State.pc (one 0xE5A1#16 (base.setReg 0x5#4 0x03#8)) = some 0x0204#16 ∧
    see State.pc (one 0xE5A1#16 (base.setReg 0x5#4 0x03#8) (pressed [3])) = some 0x0202#16 := by decide

-- L2-W1, L2-W2
theorem test_ldVxK_level :
    see (fun t => (t.reg vf, t.pc, t.wait)) (one 0xFF0A#16 base (pressed [9, 12])) = some (0x09#8, 0x0202#16, none) ∧
    see (fun t => (t.reg 0x0#4, t.pc, t.wait)) (one 0xF00A#16 base) = some (0x00#8, 0x0200#16, some 0x0#4) := by decide

-- L2-W4: under press_edge a held key does not count, a new one does
theorem test_ldVxK_press_edge :
    see (fun t => (t.wait, t.waitPrev)) (one 0xF00A#16 other (pressed [3])) = some (some 0x0#4, pressed [3]) ∧
    see (fun t => (t.reg 0x0#4, t.wait, t.pc))
      (coreStep (pressed [3, 5]) 0x00#8 ((other.setWait (some 0x0#4)).setWaitPrev (pressed [3]))) =
      some (0x05#8, none, 0x0202#16) := by decide

/-! ### The host -/

-- L2-F1: the fault changes nothing and skip goes past it
theorem test_skip_after_unknown_opcode :
    Session.run [.step noKeys 0x00#8, .skip] (Session.start base) =
      .session
        { machine := { base with pc := 0x0202#16 }
          last := some (.fault (.unknownOpcode 0x0000#16 0x0200#16))
          faultMark := some (.unknownOpcode 0x0000#16 0x0200#16) } := by rfl

-- L2-F4
theorem test_skip_not_defined_after_overflow :
    Session.run [.step noKeys 0x00#8, .skip]
      (Session.start ({ base with stack := List.replicate 16 0x0202#16 }.fetchNext 0x2400#16)) = .notDefined := by decide

-- L2-R1
theorem test_reset_memory :
    State.reset.readByte 0x050 = 0xF0#8 ∧ State.reset.readByte 0x09F = 0x80#8 ∧ State.reset.readByte 0x0A0 = 0x00#8 := by decide

-- R352, row-major
theorem test_snapshot : (base.setDisp (Display.toggle base.disp 2 1)).snapshot[66]? = some true := by decide

/-! ### Witnesses: a state and operands that meet the hypotheses of each statement, at the boundary of each clause -/

theorem witness_DecodeOfEncodeIsTheInstruction : (Instr.drw 0xF#4 0x0#4 0xF#4).wellFormed = true := rfl

theorem witness_EncodeOfDecodeIsTheWord : decodeWord 0xFF65#16 = some (.ldVxMem 0xF#4) := by decide

theorem witness_DecoderIsTheMaskMatchTable : decodeWord 0x8FFE#16 = some (.shl 0xF#4 0xF#4) := by decide

-- at the top of memory
theorem witness_StepRunsTheDecodedInstruction :
    let s := (base.setPc 0xFFF).fetchNext 0x602A#16
    s.wait = none ∧ decode [s.readByte s.pc.toNat, s.readByte (s.pc.toNat + 1)] = .ok (.ldImm 0x0#4 0x2A#8, []) ∧
    (Instr.ldImm 0x0#4 0x2A#8).wellFormed = true := by decide

theorem witness_StepOnAnIllegalWordFaults : base.wait = none ∧ decodeWord (base.fetch base.pc.toNat) = none := by decide

theorem witness_HostTurnSetsOnlyInputsAndTimers :
    { base with turns := [⟨2, noKeys, 0xA5#8⟩] }.turns = ⟨2, noKeys, 0xA5#8⟩ :: [] ∧ base.turns = [] := by decide

theorem witness_RetPopsOrUnderflows :
    { base with stack := [0x0FFF#16] }.stack = 0x0FFF#16 :: [] ∧ base.stack = [] ∧
    (exec (.call 0x300#12) base = .next ((base.push 0x202).setPc 0x300)) ∧
    (base.fetchNext 0x00EE#16).wait = none ∧ (base.fetchNext 0x00EE#16).fetchPc = 0x00EE#16 ∧
    (base.fetchNext 0x00EE#16).stack = [] :=
  ⟨rfl, rfl, rfl, rfl, by decide, rfl⟩

/-- A stack of `n` entries. -/
def stacked (n : Nat) : State := { base with stack := List.replicate n 0x0202#16 }

theorem witness_CallPushesOrOverflows : (stacked 15).depth < 16 ∧ 16 ≤ (stacked 16).depth := by decide

theorem witness_CallThenReturnIsSymmetric : (stacked 15).depth < 16 := by decide

theorem witness_AddRegistersSetsCarry : (0xE#4 : RegIx) ≠ vf := by decide

theorem witness_ShiftsByOneSetTheBitShiftedOut :
    (0x81#8 = if (three 0x81#8 0x7E#8 0x00#8).cfg.shiftSource = .vx then (three 0x81#8 0x7E#8 0x00#8).reg 0x0#4
      else (three 0x81#8 0x7E#8 0x00#8).reg 0x1#4) ∧
    (0x81#8 = if (other.setReg 0x3#4 0x81#8).cfg.shiftSource = .vx then (other.setReg 0x3#4 0x81#8).reg 0x2#4
      else (other.setReg 0x3#4 0x81#8).reg 0x3#4) := by decide

theorem witness_RandomIsTheDrawUnderTheMask : (0x00#8 : Byte) = 0x00#8 := rfl

-- the last digit, and the first value past it, under both policies
theorem witness_LoadFontPointsAtTheGlyph :
    ((base.setReg 0x1#4 0x0F#8).reg 0x1#4).toNat ≤ 0xF ∧ (other.setReg 0x1#4 0x10#8).cfg.rangePolicy = .mask ∧
    0xF < ((base.setReg 0x1#4 0x10#8).reg 0x1#4).toNat ∧ (base.setReg 0x1#4 0x10#8).cfg.rangePolicy = .refuse := by decide

-- a byte outside the stored ones, at a store that wraps
theorem witness_StoreDecimalWritesThreeDigits : ∀ k < 3, 0x001 % 4096 ≠ (base.setI 0xFFE).effective k % 4096 := by decide

theorem witness_StoreRegistersWritesInclusiveRange :
    (0xF : Nat) ≤ (0xF#4 : RegIx).toNat ∧ (∀ k ≤ (0xF#4 : RegIx).toNat, 0x00F % 4096 ≠ (base.setI 0xFFF).effective k % 4096) ∧
    base.cfg.loadStoreIncrement = .unchanged ∧ other.cfg.loadStoreIncrement = .xPlusOne := by decide

theorem witness_LoadRegistersReadsInclusiveRange :
    (0xF : Nat) ≤ (0xF#4 : RegIx).toNat ∧ base.cfg.loadStoreIncrement = .unchanged ∧
    other.cfg.loadStoreIncrement = .xPlusOne := by decide

theorem witness_LoadBringsBackWhatStoreSaved :
    ∃ t u w, exec (.ldMemVx 0x1#4) (three 0x12#8 0x34#8 0x00#8) = .next t ∧ sameBytes t u ∧
      u.i = (three 0x12#8 0x34#8 0x00#8).i ∧ exec (.ldVxMem 0x1#4) u = .next w ∧ (1 : Nat) ≤ (0x1#4 : RegIx).toNat :=
  ⟨_, _, _, rfl, fun _ => rfl, rfl, rfl, by decide⟩

theorem witness_StoredBytesAreFetchedNext :
    (∃ t, exec (.ldMemVx 0xF#4) base = .next t ∧ 14 < (0xF#4 : RegIx).toNat) ∧
    (∃ t, exec (.ldMemVx 0x0#4) (base.setI 0xFFF) = .next t ∧ (0xFFE + 1) % 4096 = (base.setI 0xFFF).effective 0 % 4096) ∧
    (∃ t, exec (.ldBVx 0x0#4) (base.setI 0x000) = .next t ∧ (0xFFF + 1) % 4096 = (base.setI 0x000).effective 0 % 4096) :=
  ⟨⟨_, rfl, by decide⟩, ⟨_, rfl, by decide⟩, ⟨_, rfl, by decide⟩⟩

-- the second draw straight after the first; at the last pixel
theorem witness_DrawXorsTheSpriteAndReportsCollision :
    (63 < 64 ∧ 31 < 32) ∧
    spriteCovers ((base.writeByte 0x300 0x80#8).setI 0x300) 63 31 1 63 31 := ⟨by decide, 0, by decide, 0, by decide, by decide⟩

theorem witness_DrawingTwiceRestoresTheDisplay :
    ∃ t u w, exec (.drw 0x0#4 0x1#4 0x5#4) (base.setI 0x050) = .next t ∧ sameDisplay t u ∧
      u.reg 0x0#4 = (base.setI 0x050).reg 0x0#4 ∧ u.reg 0x1#4 = (base.setI 0x050).reg 0x1#4 ∧
      u.i = (base.setI 0x050).i ∧ sameBytes (base.setI 0x050) u ∧ exec (.drw 0x0#4 0x1#4 0x5#4) u = .next w :=
  ⟨_, _, _, rfl, fun _ _ => rfl, rfl, rfl, rfl, fun _ => rfl, rfl⟩

theorem witness_SnapshotIsRowMajor : 63 < 64 ∧ 31 < 32 := by decide

theorem witness_TickDecrementsNonzeroTimers :
    (base.setDt 0x01#8).dt ≠ 0x00#8 ∧ (base.setDt 0x01#8).st = 0x00#8 ∧ (base.setSt 0xFF#8).st ≠ 0x00#8 ∧
    (base.setSt 0xFF#8).dt = 0x00#8 := by decide

theorem witness_KeySkipsTestTheSnapshot :
    ((base.setReg 0x5#4 0x0F#8).reg 0x5#4).toNat ≤ 0xF ∧ (other.setReg 0x5#4 0x10#8).cfg.rangePolicy = .mask ∧
    0xF < ((base.setReg 0x5#4 0x10#8).reg 0x5#4).toNat ∧ (base.setReg 0x5#4 0x10#8).cfg.rangePolicy = .refuse := by decide

-- only the highest key pressed; the other trigger; no key
theorem witness_KeyWaitTakesTheLowestKeyOrBlocks :
    (base.latch (pressed [15]) 0x00#8).cfg.keyTrigger = .level ∧ (base.latch (pressed [15]) 0x00#8).keys[15] = true ∧
    (∀ j : Fin 16, j < 15 → (base.latch (pressed [15]) 0x00#8).keys[j] = false) ∧
    other.cfg.keyTrigger = .pressEdge ∧ (∀ k : Fin 16, base.keys[k] = false) := by decide

-- under press_edge: key 3 held, key 5 new; then nothing new
theorem witness_WaitStepTestsOnlyTheTrigger :
    let s := (other.setWait (some 0x0#4)).setWaitPrev (pressed [3])
    let candidate := fun ks : Keys => fun k : Fin 16 => ks[k] = true ∧ (s.cfg.keyTrigger = .pressEdge → s.waitPrev[k] = false)
    s.wait = some 0x0#4 ∧ (candidate (pressed [3, 5]) 5 ∧ ∀ j, j < 5 → ¬ candidate (pressed [3, 5]) j) ∧
    (∀ k, ¬ candidate (pressed [3]) k) := by decide

theorem witness_WaitWithoutKeysNeverEnds : (Session.start (base.setWait (some 0xF#4))).machine.wait = some 0xF#4 := rfl

theorem witness_EachComponentHasOnlyItsWriters :
    (∃ t, exec (.addImm 0x0#4 0x01#8) base = .next t) ∧ (∀ x, Instr.addImm 0x0#4 0x01#8 ≠ .ldBVx x ∧ Instr.addImm 0x0#4 0x01#8 ≠ .ldMemVx x) ∧
    (Instr.addImm 0x0#4 0x01#8 ≠ .cls ∧ ∀ x y n, Instr.addImm 0x0#4 0x01#8 ≠ .drw x y n) ∧
    (Instr.addImm 0x0#4 0x01#8 ≠ .ret ∧ ∀ nnn, Instr.addImm 0x0#4 0x01#8 ≠ .call nnn) ∧
    (∀ x, Instr.addImm 0x0#4 0x01#8 ≠ .ldDtVx x) ∧ (∀ x, Instr.addImm 0x0#4 0x01#8 ≠ .ldStVx x) ∧
    (∀ x, Instr.addImm 0x0#4 0x01#8 ≠ .ldVxK x) ∧
    (∀ nnn x, Instr.addImm 0x0#4 0x01#8 ≠ .ldI nnn ∧ Instr.addImm 0x0#4 0x01#8 ≠ .addIVx x ∧
      Instr.addImm 0x0#4 0x01#8 ≠ .ldFVx x ∧ Instr.addImm 0x0#4 0x01#8 ≠ .ldMemVx x ∧ Instr.addImm 0x0#4 0x01#8 ≠ .ldVxMem x) :=
  ⟨⟨_, rfl⟩, by simp, by simp, by simp, by simp, by simp, by simp, by simp⟩

-- a load of the 15 registers below VF
theorem witness_FlagHasOnlyItsWriters :
    (∃ t, exec (.ldVxMem 0xE#4) base = .next t) ∧
    (∀ x y n, Instr.ldVxMem 0xE#4 ≠ .addReg x y ∧ Instr.ldVxMem 0xE#4 ≠ .subReg x y ∧ Instr.ldVxMem 0xE#4 ≠ .shr x y ∧
      Instr.ldVxMem 0xE#4 ≠ .subnReg x y ∧ Instr.ldVxMem 0xE#4 ≠ .shl x y ∧ Instr.ldVxMem 0xE#4 ≠ .drw x y n) ∧
    (∀ y kk, Instr.ldVxMem 0xE#4 ≠ .ldImm vf kk ∧ Instr.ldVxMem 0xE#4 ≠ .addImm vf kk ∧ Instr.ldVxMem 0xE#4 ≠ .ldReg vf y ∧
      Instr.ldVxMem 0xE#4 ≠ .orReg vf y ∧ Instr.ldVxMem 0xE#4 ≠ .andReg vf y ∧ Instr.ldVxMem 0xE#4 ≠ .xorReg vf y ∧
      Instr.ldVxMem 0xE#4 ≠ .rnd vf kk ∧ Instr.ldVxMem 0xE#4 ≠ .ldVxDt vf ∧ Instr.ldVxMem 0xE#4 ≠ .ldVxK vf ∧
      Instr.ldVxMem 0xE#4 ≠ .ldVxMem vf) :=
  ⟨⟨_, rfl⟩, by simp, by simp [vf]⟩

theorem witness_InputsAreReadOnlyByTheirInstructions :
    (∀ x, Instr.rnd 0x0#4 0xFF#8 ≠ .skp x ∧ Instr.rnd 0x0#4 0xFF#8 ≠ .sknp x ∧ Instr.rnd 0x0#4 0xFF#8 ≠ .ldVxK x) ∧
    (∀ x kk, Instr.skp 0x0#4 ≠ .rnd x kk) := ⟨by simp, by simp⟩

theorem witness_StepFaultRecordsTheWordAtPc : faultOf (step base) = some (.unknownOpcode 0x0000#16 0x0200#16) := by decide

theorem witness_AFaultIsReproduced : coreStep noKeys 0x00#8 base = .fault (.unknownOpcode 0x0000#16 0x0200#16) := by rfl

-- the first fault; then a mark that a tick and a skip leave
theorem witness_FaultsChangeNothingAndStayMarked :
    coreStep noKeys 0x00#8 (Session.start base).machine = .fault (.unknownOpcode 0x0000#16 0x0200#16) ∧
    faultFree (Session.start base) ∧
    (∃ τ, (Session.start base).move (.step noKeys 0x00#8) = .session τ ∧
      τ.faultMark = some (.unknownOpcode 0x0000#16 0x0200#16)) ∧
    ∃ τ, Session.run [.tick, .skip] { machine := base, last := some (.fault (.unknownOpcode 0x0000#16 0x0200#16)), faultMark := some (.unknownOpcode 0x0000#16 0x0200#16) } = .session τ :=
  ⟨by rfl, rfl, ⟨_, by rfl, rfl⟩, _, by rfl⟩

/-- A session whose most recent step had the outcome `o`. -/
def after (o : StepOutcome) : Session := { Session.start base with last := some o }

-- each outcome of the most recent step, and none
theorem witness_SkipIsDefinedOnlyAfterASkippableFault :
    (after (.fault (.unknownOpcode 0x0000#16 0x0FFE#16))).last = some (.fault (.unknownOpcode 0x0000#16 0x0FFE#16)) ∧
    (after (.fault (.outOfSpec 0xF129#16 0x0200#16))).last = some (.fault (.outOfSpec 0xF129#16 0x0200#16)) ∧
    (after (.fault (.stackOverflow 0x2300#16 0x0200#16))).last = some (.fault (.stackOverflow 0x2300#16 0x0200#16)) ∧
    (after (.fault (.stackUnderflow 0x00EE#16 0x0200#16))).last = some (.fault (.stackUnderflow 0x00EE#16 0x0200#16)) ∧
    (after .retired).last = some .retired ∧ (after .waiting).last = some .waiting ∧ (Session.start base).last = none := by decide

-- one byte too many, the largest ROM, the empty ROM; the highest font base, and one above it
theorem witness_RomIsRefusedOrLoaded :
    4096 - 0x200 < (List.replicate 3585 0x00#8).length ∧ (List.replicate 3584 0x00#8).length ≤ 3584 ∧
    base.cfg.fontBase.toNat + 80 ≤ 0x200 ∧ (∃ s, construct [] base.cfg = .ok s) ∧
    ({ base.cfg with fontBase := 0x1B0#12 }.fontBase.toNat + 80 ≤ 0x200) ∧
    0x200 < { base.cfg with fontBase := 0x1B1#12 }.fontBase.toNat + 80 := by
  refine ⟨?_, ?_, by decide, ⟨_, rfl⟩, by decide, by decide⟩
  · rw [List.length_replicate]; decide
  · exact Nat.le_of_eq List.length_replicate

-- a font at the bottom of memory and a ROM of two bytes
theorem witness_ConstructionLeavesTheResetValues : ∃ s, construct [0x12#8, 0x00#8] { base.cfg with fontBase := 0x000#12 } = .ok s :=
  ⟨_, rfl⟩

-- P1's last word
theorem witness_AStoppedProgramLoops : hasStopped (base.fetchNext 0x1200#16) ∧ (base.fetchNext 0x1200#16).pc.toNat < 0x1000 :=
  ⟨⟨rfl, by decide⟩, by decide⟩

theorem base_inv : Inv base := ⟨rfl, by decide, by decide, by decide, by simp [base, State.blank, State.reset], by simp [base, State.blank, State.reset]⟩

theorem witness_EveryStepKeepsTheInvariant :
    Inv (base.fetchNext 0x2300#16) ∧ ∃ t, step (base.fetchNext 0x2300#16) = .next t :=
  ⟨⟨by decide, by decide, by decide, by decide, by simp [base, State.blank, State.reset, State.fetchNext, State.placeWord, State.writeByte, State.setWait],
    by simp [State.fetchNext, State.setWait]⟩, _, by rfl⟩

-- a step that faults, after which the session is marked
theorem witness_EveryMoveKeepsTheSessionInvariant :
    SessionInv (Session.start base) ∧ ∃ τ, (Session.start base).move (.step noKeys 0x00#8) = .session τ :=
  ⟨⟨base_inv, by decide, by intro f h; cases h⟩, _, by rfl⟩

-- a step that blocks, ticks meanwhile, and a step whose key ends the wait
theorem witness_EveryReachableSessionMeetsTheInvariant :
    ∃ s τ, construct [0xF0#8, 0x0A#8] base.cfg = .ok s ∧
      Session.run [.step noKeys 0x00#8, .tick, .step (pressed [3]) 0x00#8] (Session.start s) = .session τ :=
  ⟨_, _, rfl, by rfl⟩

end Sys2Proof.Tests
end

section
/-! Proofs of the family 20_memory.md: every address is taken modulo 4096 (R101). -/

namespace Sys2Proof.Proofs.Memory

open Sys2Proof.Machine Sys2Proof.Laws.Memory Sys2Proof.Laws.Ops Sys2Proof.Laws.Decode

variable (s : State)

/-- Addresses that agree modulo 4096 name one byte (R101). -/
theorem readByte_congr_mod {a c : Nat} (h : a % 4096 = c % 4096) : s.readByte a = s.readByte c := by
  rw [← readByte_mod s a, h, readByte_mod]

/-- The fetched word is big-endian: the byte at `a` is its high byte, the byte at `a + 1` its low byte (R102). -/
theorem fetch_toNat (a : Nat) :
    (s.fetch a).toNat = (s.readByte a).toNat * 256 + (s.readByte (a + 1)).toNat :=
  wordOfBytes_toNat (s.readByte a) (s.readByte (a + 1))

/-- `Fetch(0xFFF)` takes its low byte from the bottom of memory (R101). -/
theorem fetch_top_toNat :
    (s.fetch 0xFFF).toNat = (s.readByte 0xFFF).toNat * 256 + (s.readByte 0x000).toNat := by
  have hwrap : s.readByte (0xFFF + 1) = s.readByte 0x000 := readByte_congr_mod s rfl
  rw [fetch_toNat, hwrap]

/-- Settles O6: the read wraps its address, a write is seen at every address that agrees modulo 4096 and nowhere else, and
the two bytes of a fetch wrap each by itself. -/
theorem memoryAddressesWrap : Obligations.MemoryAddressesWrap := by
  unfold Obligations.MemoryAddressesWrap
  intro s a c b
  exact ⟨(readByte_mod s a).symm, readByte_writeByte a c s b, fetch_toNat s a, fetch_top_toNat s⟩

end Sys2Proof.Proofs.Memory
end

section
/-! Proofs of the family 40_control_flow.md: jumps (R202). -/

namespace Sys2Proof.Proofs.ControlFlow

open Sys2Proof.Machine Sys2Proof.Safety Sys2Proof.Laws.State Sys2Proof.Laws.Decode

/-- Moving `pc` is within the frame of every instruction that only writes registers. -/
theorem registersOnly_setPc (s : State) (n : Nat) (dest : RegIx → Prop) : RegistersOnly s (s.setPc n) dest where
  regs r _ := setPc_reg s n r
  index := setPc_i s n
  bytes := setPc_readByte s n
  rest :=
    { stack := setPc_stack s n
      timers := ⟨setPc_dt s n, setPc_st s n⟩
      display := fun px py => by rw [setPc_disp]
      waiting := ⟨setPc_wait s n, setPc_waitPrev s n⟩
      inputs := ⟨setPc_keys s n, setPc_rnd s n, setPc_cfg s n, setPc_turns s n, setPc_turnsTaken s n⟩ }

/-- A 12-bit address put into `pc` is not wrapped (R202, R203). -/
theorem setPc_addr_toNat (s : State) (nnn : Addr) : (s.setPc nnn.toNat).pc.toNat = nnn.toNat := by
  have hlt : nnn.toNat < 4096 := nnn.isLt
  rw [setPc_pc, wrap12_toNat, Nat.mod_eq_of_lt hlt]

/-- Every word of family 1 is a jump to its address field (R161, R202). -/
theorem decodeWord_jp (nnn : Addr) : decodeWord (encodeNNN 0x1#4 nnn) = some (.jp nnn) := by
  simp [decodeWord]

/-- What a jump does, said through the update of `pc` (R202). -/
theorem exec_jp (nnn : Addr) (s : State) : exec (.jp nnn) s = .next (s.setPc nnn.toNat) := rfl

/-- Settles O12: the encoding of R160, the target taken without wrapping, and the frame of an update of `pc`. -/
theorem jpSetsPc : Obligations.JpSetsPc := by
  unfold Obligations.JpSetsPc
  intro s nnn
  exact ⟨rfl, decodeWord_jp nnn, _, exec_jp nnn s, setPc_addr_toNat s nnn, registersOnly_setPc s nnn.toNat noRegister⟩

end Sys2Proof.Proofs.ControlFlow
end

section
/-! Proofs of the family 41_alu.md: the register load (R250). -/

namespace Sys2Proof.Proofs.Alu

open Sys2Proof.Machine Sys2Proof.Safety Sys2Proof.Laws.State Sys2Proof.Laws.Decode
open Sys2Proof.Proofs.ControlFlow (registersOnly_setPc)

/-- A write of a register leaves every other component, and every other register, as it was. -/
theorem registersOnly_setReg (s : State) (x : RegIx) (b : Byte) : RegistersOnly s (s.setReg x b) (· = x) where
  regs r hr := by rw [setReg_reg, if_neg hr]
  index := setReg_i s x b
  bytes := setReg_readByte s x b
  rest :=
    { stack := setReg_stack s x b
      timers := ⟨setReg_dt s x b, setReg_st s x b⟩
      display := fun px py => by rw [setReg_disp]
      waiting := ⟨setReg_wait s x b, setReg_waitPrev s x b⟩
      inputs := ⟨setReg_keys s x b, setReg_rnd s x b, setReg_cfg s x b, setReg_turns s x b, setReg_turnsTaken s x b⟩ }

/-- Two updates in turn that both stay within a frame of registers stay within it together. -/
theorem registersOnly_trans {s t u : State} {dest : RegIx → Prop} (hst : RegistersOnly s t dest)
    (htu : RegistersOnly t u dest) : RegistersOnly s u dest where
  regs r hr := (htu.regs r hr).trans (hst.regs r hr)
  index := htu.index.trans hst.index
  bytes a := (htu.bytes a).trans (hst.bytes a)
  rest :=
    { stack := htu.rest.stack.trans hst.rest.stack
      timers := ⟨htu.rest.timers.dt.trans hst.rest.timers.dt, htu.rest.timers.st.trans hst.rest.timers.st⟩
      display := fun px py => (htu.rest.display px py).trans (hst.rest.display px py)
      waiting :=
        ⟨htu.rest.waiting.wait.trans hst.rest.waiting.wait, htu.rest.waiting.waitPrev.trans hst.rest.waiting.waitPrev⟩
      inputs :=
        { keys := htu.rest.inputs.keys.trans hst.rest.inputs.keys
          rnd := htu.rest.inputs.rnd.trans hst.rest.inputs.rnd
          cfg := htu.rest.inputs.cfg.trans hst.rest.inputs.cfg
          turns := htu.rest.inputs.turns.trans hst.rest.inputs.turns
          turnsTaken := htu.rest.inputs.turnsTaken.trans hst.rest.inputs.turnsTaken } }

/-- Advancing `pc` afterwards stays within a frame of registers: every instruction that only writes registers ends so
(R172). -/
theorem registersOnly_advance {s t : State} {dest : RegIx → Prop} (h : RegistersOnly s t dest) :
    RegistersOnly s t.advance dest :=
  registersOnly_trans h (registersOnly_setPc t (t.pc.toNat + 2) dest)

/-- `pc` after the update that R172 gives an instruction by default. -/
theorem advance_pc_toNat (s : State) : s.advance.pc.toNat = nextPc s :=
  wrap12_toNat (s.pc.toNat + 2)

/-- Advancing `pc` changes no register. -/
theorem advance_reg (s : State) (r : RegIx) : s.advance.reg r = s.reg r :=
  setPc_reg s (s.pc.toNat + 2) r

/-- Every word of family 6 is a load of its constant into its register (R161, R250). -/
theorem decodeWord_ldImm (x : RegIx) (kk : Byte) : decodeWord (encodeXKK 0x6#4 x kk) = some (.ldImm x kk) := by
  simp [decodeWord]

/-- What the load does, said through the updates of the register and of `pc` (R250). -/
theorem exec_ldImm (x : RegIx) (kk : Byte) (s : State) : exec (.ldImm x kk) s = .next (s.setReg x kk).advance := rfl

/-- The destination holds the constant after the load, `VF` like any other register (R250). -/
theorem setReg_advance_reg_same (s : State) (x : RegIx) (b : Byte) : (s.setReg x b).advance.reg x = b := by
  rw [advance_reg, setReg_reg, if_pos rfl]

/-- Settles O17: the encoding of R160, the constant in the destination, and the frame of one register write followed by the
default update of `pc`. -/
theorem loadConstantWritesOneRegister : Obligations.LoadConstantWritesOneRegister := by
  unfold Obligations.LoadConstantWritesOneRegister
  intro s x kk
  have hpc : (s.setReg x kk).advance.pc.toNat = nextPc s := advance_pc_toNat (s.setReg x kk)
  have hframe : RegistersOnly s (s.setReg x kk).advance (· = x) := registersOnly_advance (registersOnly_setReg s x kk)
  exact ⟨rfl, decodeWord_ldImm x kk, _, exec_ldImm x kk s, setReg_advance_reg_same s x kk, hpc, hframe⟩

end Sys2Proof.Proofs.Alu
end

section
/-! Proofs of the family 42_index_memory.md: the index load (R300). -/

namespace Sys2Proof.Proofs.IndexMemory

open Sys2Proof.Machine Sys2Proof.Safety Sys2Proof.Laws.State Sys2Proof.Laws.Decode
open Sys2Proof.Proofs.ControlFlow (registersOnly_setPc)
open Sys2Proof.Proofs.Alu (advance_pc_toNat)

/-! ### The frame of a write of `I` -/

/-- Two updates in turn that both keep what lies outside registers, `I`, `pc` and memory keep it together. -/
theorem restKept_trans {s t u : State} (hst : RestKept s t) (htu : RestKept t u) : RestKept s u where
  stack := htu.stack.trans hst.stack
  timers := ⟨htu.timers.dt.trans hst.timers.dt, htu.timers.st.trans hst.timers.st⟩
  display px py := (htu.display px py).trans (hst.display px py)
  waiting := ⟨htu.waiting.wait.trans hst.waiting.wait, htu.waiting.waitPrev.trans hst.waiting.waitPrev⟩
  inputs :=
    { keys := htu.inputs.keys.trans hst.inputs.keys
      rnd := htu.inputs.rnd.trans hst.inputs.rnd
      cfg := htu.inputs.cfg.trans hst.inputs.cfg
      turns := htu.inputs.turns.trans hst.inputs.turns
      turnsTaken := htu.inputs.turnsTaken.trans hst.inputs.turnsTaken }

/-- A write of `I` leaves every other component as it was. -/
theorem indexOnly_setI (s : State) (n : Nat) : IndexOnly s (s.setI n) where
  regs r _ := setI_reg s n r
  bytes := setI_readByte s n
  rest :=
    { stack := setI_stack s n
      timers := ⟨setI_dt s n, setI_st s n⟩
      display := fun px py => by rw [setI_disp]
      waiting := ⟨setI_wait s n, setI_waitPrev s n⟩
      inputs := ⟨setI_keys s n, setI_rnd s n, setI_cfg s n, setI_turns s n, setI_turnsTaken s n⟩ }

/-- Advancing `pc` afterwards stays within the frame of a write of `I`: every instruction that only writes `I` ends so
(R172). -/
theorem indexOnly_advance {s t : State} (h : IndexOnly s t) : IndexOnly s t.advance :=
  have hpc : RegistersOnly t t.advance noRegister := registersOnly_setPc t (t.pc.toNat + 2) noRegister
  { regs := fun r hr => (hpc.regs r hr).trans (h.regs r hr)
    bytes := fun a => (hpc.bytes a).trans (h.bytes a)
    rest := restKept_trans h.rest hpc.rest }

/-- `I` after a write of it and the default update of `pc`: the written number modulo 4096 (R55). -/
theorem setI_advance_i_toNat (s : State) (n : Nat) : (s.setI n).advance.i.toNat = n % 4096 := by
  have hi : (s.setI n).advance.i = wrap12 n := setPc_i (s.setI n) _
  rw [hi, wrap12_toNat]

/-! ### LD I, nnn -/

/-- Every word of family A loads its address field into `I` (R161, R300). -/
theorem decodeWord_ldI (nnn : Addr) : decodeWord (encodeNNN 0xA#4 nnn) = some (.ldI nnn) := by
  simp [decodeWord]

/-- What the load of `I` does, said through the updates of `I` and of `pc` (R300). -/
theorem exec_ldI (nnn : Addr) (s : State) : exec (.ldI nnn) s = .next (s.setI nnn.toNat).advance := rfl

/-- Settles O25: the encoding of R160, the address in `I` without wrapping because it has 12 bits, and the frame of a write of
`I` followed by the default update of `pc`. -/
theorem loadIndexSetsI : Obligations.LoadIndexSetsI := by
  unfold Obligations.LoadIndexSetsI
  intro s nnn
  have hlt : nnn.toNat < 0x1000 := nnn.isLt
  have hi : (s.setI nnn.toNat).advance.i.toNat = nnn.toNat := by rw [setI_advance_i_toNat, Nat.mod_eq_of_lt hlt]
  have hpc : (s.setI nnn.toNat).advance.pc.toNat = nextPc s := advance_pc_toNat (s.setI nnn.toNat)
  have hframe : IndexOnly s (s.setI nnn.toNat).advance := indexOnly_advance (indexOnly_setI s nnn.toNat)
  exact ⟨rfl, decodeWord_ldI nnn, _, exec_ldI nnn s, hi, hi.trans_lt hlt, hpc, hframe⟩

end Sys2Proof.Proofs.IndexMemory
end

section
/-! Proofs of the family 43_display.md: clearing the display (R350). -/

namespace Sys2Proof.Proofs.Display

open Sys2Proof.Machine Sys2Proof.Safety Sys2Proof.Laws.State Sys2Proof.Laws.Surface
open Sys2Proof.Proofs.Alu (advance_pc_toNat)

/-! ### The frame of a write of the display -/

/-- Everything but `pc` and the display is unchanged. -/
structure DisplayOnly (s t : State) : Prop where
  regs : regsKept s t noRegister
  index : t.i = s.i
  bytes : sameBytes s t
  stack : t.stack = s.stack
  timers : TimersKept s t
  waiting : WaitKept s t
  inputs : InputsKept s t

/-- A write of the display leaves every other component as it was. -/
theorem displayOnly_setDisp (s : State) (d : Display) : DisplayOnly s (s.setDisp d) where
  regs r _ := setDisp_reg s d r
  index := setDisp_i s d
  bytes := setDisp_readByte s d
  stack := setDisp_stack s d
  timers := ⟨setDisp_dt s d, setDisp_st s d⟩
  waiting := ⟨setDisp_wait s d, setDisp_waitPrev s d⟩
  inputs := ⟨setDisp_keys s d, setDisp_rnd s d, setDisp_cfg s d, setDisp_turns s d, setDisp_turnsTaken s d⟩

/-- Advancing `pc` afterwards stays within the frame of a write of the display (R172). -/
theorem displayOnly_advance {s t : State} (h : DisplayOnly s t) : DisplayOnly s t.advance where
  regs r hr := (setPc_reg t _ r).trans (h.regs r hr)
  index := (setPc_i t _).trans h.index
  bytes a := (setPc_readByte t _ a).trans (h.bytes a)
  stack := (setPc_stack t _).trans h.stack
  timers := ⟨(setPc_dt t _).trans h.timers.dt, (setPc_st t _).trans h.timers.st⟩
  waiting := ⟨(setPc_wait t _).trans h.waiting.wait, (setPc_waitPrev t _).trans h.waiting.waitPrev⟩
  inputs :=
    { keys := (setPc_keys t _).trans h.inputs.keys
      rnd := (setPc_rnd t _).trans h.inputs.rnd
      cfg := (setPc_cfg t _).trans h.inputs.cfg
      turns := (setPc_turns t _).trans h.inputs.turns
      turnsTaken := (setPc_turnsTaken t _).trans h.inputs.turnsTaken }

/-- The display after a write of it and the default update of `pc` is the one written. -/
theorem setDisp_advance_disp (s : State) (d : Display) : (s.setDisp d).advance.disp = d :=
  (setPc_disp (s.setDisp d) _).trans (setDisp_disp s d)

/-! ### CLS -/

/-- The one word of CLS (R160, R350). -/
theorem decodeWord_cls : decodeWord 0x00E0#16 = some .cls := rfl

/-- What CLS does, said through the updates of the display and of `pc` (R350). -/
theorem exec_cls (s : State) : exec .cls s = .next (s.setDisp Display.cleared).advance := rfl

/-- Settles O33: the encoding of R160, the cleared display, and the frame of a write of the display followed by the default
update of `pc`. -/
theorem clearSetsEveryPixelToZero : Obligations.ClearSetsEveryPixelToZero := by
  unfold Obligations.ClearSetsEveryPixelToZero
  refine ⟨rfl, decodeWord_cls, fun s => ?_⟩
  have hpix : ∀ px py, Display.pix (s.setDisp Display.cleared).advance.disp px py = false := by
    intro px py
    rw [setDisp_advance_disp, pix_cleared]
  have hpc : (s.setDisp Display.cleared).advance.pc.toNat = nextPc s := advance_pc_toNat (s.setDisp Display.cleared)
  have hframe : DisplayOnly s (s.setDisp Display.cleared).advance := displayOnly_advance (displayOnly_setDisp s _)
  exact ⟨_, exec_cls s, hpix, hpc, hframe.regs, hframe.index, hframe.bytes, hframe.stack, hframe.timers, hframe.waiting,
    hframe.inputs⟩

end Sys2Proof.Proofs.Display
end

section
/-! Proofs of the family 44_timers_input.md: the tick and the reading of the sound timer (R430, R432). -/

namespace Sys2Proof.Proofs.TimersInput

open Sys2Proof.Machine Sys2Proof.Laws.Ops

/-! ### The tick (R430) -/

/-- The delay timer after a tick, on numbers, where 0 - 1 is 0. -/
theorem tick_dt_toNat (s : State) : s.tick.dt.toNat = s.dt.toNat - 1 := timerAfter_toNat 1 s.dt

/-- The sound timer after a tick, on numbers, where 0 - 1 is 0. -/
theorem tick_st_toNat (s : State) : s.tick.st.toNat = s.st.toNat - 1 := timerAfter_toNat 1 s.st

/-- A timer at 0 stays there, whatever the number of ticks. -/
theorem timerAfter_zero (n : Nat) : timerAfter n 0x00#8 = 0x00#8 := if_pos rfl

/-- A tick leaves a delay timer at 0 as it is. -/
theorem tick_dt_of_zero {s : State} (h : s.dt = 0x00#8) : s.tick.dt = 0x00#8 :=
  (congrArg (timerAfter 1) h).trans (timerAfter_zero 1)

/-- A tick leaves a sound timer at 0 as it is. -/
theorem tick_st_of_zero {s : State} (h : s.st = 0x00#8) : s.tick.st = 0x00#8 :=
  (congrArg (timerAfter 1) h).trans (timerAfter_zero 1)

/-- A tick changes no component but the two timers. -/
theorem tick_frame (s : State) : s.tick = { s with dt := s.tick.dt, st := s.tick.st } := rfl

/-- As a move of the host, a tick is defined in every session and touches only the machine. -/
theorem move_tick (σ : Session) : σ.move .tick = .session { σ with machine := σ.machine.tick } := rfl

/-- Settles O38: the move is defined, each timer is its value less 1 with 0 kept, and the rest is the frame of a tick. -/
theorem tickDecrementsNonzeroTimers : Obligations.TickDecrementsNonzeroTimers := by
  unfold Obligations.TickDecrementsNonzeroTimers
  intro σ
  exact ⟨_, move_tick σ, fun _ => tick_dt_toNat σ.machine, tick_dt_of_zero, fun _ => tick_st_toNat σ.machine,
    tick_st_of_zero, congrArg (fun s => { σ with machine := s }) (tick_frame σ.machine)⟩

/-! ### The sound output (R432) -/

/-- The host hears sound exactly while the sound timer is nonzero. -/
theorem soundActive_iff (s : State) : s.soundActive = true ↔ s.st ≠ 0x00#8 := bne_iff_ne

/-- Reading the sound output leaves the session as it is. -/
theorem move_soundActive (σ : Session) : σ.move .soundActive = .session σ := rfl

/-- Settles O40: the output is the test of the sound timer, and reading it is a move that changes nothing. -/
theorem soundIsTheNonzeroSoundTimer : Obligations.SoundIsTheNonzeroSoundTimer := by
  unfold Obligations.SoundIsTheNonzeroSoundTimer
  intro σ
  exact ⟨soundActive_iff σ.machine, move_soundActive σ⟩

end Sys2Proof.Proofs.TimersInput
end

section
/-! Proofs of the family 30_encoding.md: the decoder, the encoder and the mask/match table (R160 to R162). -/

namespace Sys2Proof.Proofs.Encoding

open Sys2Proof.Laws Sys2Proof.Laws.Decode

/-! ### Decoding an encoded word -/

/-- The decoder reads an instruction back from its word: the high nibble selects the family, and in the families 0, 5, 8, 9, E
and F a sub-selector the row (R161). -/
theorem decodeWord_encode (i : Instr) : decodeWord (encode i) = some i := by
  cases i
  case cls | ret => rfl
  case jp | call | seImm | sneImm | ldImm | addImm | ldI | jpV0 | rnd | drw => simp [encode, decodeWord]
  case seReg | sneReg => simp [encode, decodeWord]
  case ldReg | orReg | andReg | xorReg | addReg | subReg | shr | subnReg | shl => simp [encode, decodeWord, decode8]
  case skp | sknp => simp [encode, decodeWord, decodeE]
  case ldVxDt | ldVxK | ldDtVx | ldStVx | addIVx | ldFVx | ldBVx | ldMemVx | ldVxMem =>
    simp [encode, decodeWord, decodeF]

/-- The byte decoder consumes exactly the two bytes of an encoded instruction (R150). -/
theorem decode_encodeBytes (i : Instr) (rest : List Byte) : decode (encodeBytes i ++ rest) = .ok (i, rest) := by
  simp [encodeBytes, decode, decodeWord_encode]

/-- Settles O1: the word by the decoder's case split, the bytes because they make that word again. -/
theorem decodeOfEncodeIsTheInstruction : Obligations.DecodeOfEncodeIsTheInstruction := by
  unfold Obligations.DecodeOfEncodeIsTheInstruction
  intro i _
  exact ⟨decodeWord_encode i, decode_encodeBytes i⟩

/-! ### Encoding a decoded word -/

variable {op : Word} {i : Instr}

/-- Family 0: both words are written out. -/
theorem encode_of_decode0 (h : decode0 op = some i) : encode i = op := by
  unfold decode0 at h
  split_ifs at h with h0 h1
  · cases h; exact h0.symm
  · cases h; exact h1.symm

/-- Family 8: the instruction keeps both registers, and its sub-selector is the low nibble. -/
theorem encode_of_decode8 (h : decode8 op = some i) : encode i = encodeXYN 0x8#4 (fieldX op) (fieldY op) (fieldN op) := by
  simp only [decode8] at h
  split_ifs at h <;> cases h <;> simp_all [encode]

/-- Family E: the instruction keeps the register, and its sub-selector is the low byte. -/
theorem encode_of_decodeE (h : decodeE op = some i) : encode i = encodeXKK 0xE#4 (fieldX op) (fieldKK op) := by
  simp only [decodeE] at h
  split_ifs at h <;> cases h <;> simp_all [encode]

/-- Family F: the instruction keeps the register, and its sub-selector is the low byte. -/
theorem encode_of_decodeF (h : decodeF op = some i) : encode i = encodeXKK 0xF#4 (fieldX op) (fieldKK op) := by
  simp only [decodeF] at h
  split_ifs at h <;> cases h <;> simp_all [encode]

/-- A word of format `NNN`, its high nibble known. -/
theorem encodeNNN_of_fieldH {h : Nibble} (hh : fieldH op = h) : encodeNNN h (fieldNNN op) = op :=
  hh ▸ encodeNNN_fields op

/-- A word of format `XKK` or `XSS`, its high nibble known. -/
theorem encodeXKK_of_fieldH {h : Nibble} (hh : fieldH op = h) : encodeXKK h (fieldX op) (fieldKK op) = op :=
  hh ▸ encodeXKK_fields op

/-- A word of format `XYS` or `XYN`, its high nibble known. -/
theorem encodeXYN_of_fieldH {h : Nibble} (hh : fieldH op = h) :
    encodeXYN h (fieldX op) (fieldY op) (fieldN op) = op :=
  hh ▸ encodeXYN_fields op

/-- The sixteen values of a nibble. -/
theorem nibble_cases (h : Nibble) :
    h = 0x0#4 ∨ h = 0x1#4 ∨ h = 0x2#4 ∨ h = 0x3#4 ∨ h = 0x4#4 ∨ h = 0x5#4 ∨ h = 0x6#4 ∨ h = 0x7#4 ∨
    h = 0x8#4 ∨ h = 0x9#4 ∨ h = 0xA#4 ∨ h = 0xB#4 ∨ h = 0xC#4 ∨ h = 0xD#4 ∨ h = 0xE#4 ∨ h = 0xF#4 := by
  revert h; decide

/-- A word of format `XYS`, its high nibble and its sub-selector known. -/
theorem encodeXYN_of_fields {h n : Nibble} (hh : fieldH op = h) (hn : fieldN op = n) :
    encodeXYN h (fieldX op) (fieldY op) n = op :=
  hn ▸ encodeXYN_of_fieldH hh

/-- A decoded word is the encoding of its instruction: high nibble, operands and sub-selector are the fields of the word, which
make the word again. -/
theorem encode_of_decodeWord (h : decodeWord op = some i) : encode i = op := by
  rcases nibble_cases (fieldH op) with h0 | h1 | h2 | h3 | h4 | h5 | h6 | h7 | h8 | h9 | hA | hB | hC | hD | hE | hF
  · exact encode_of_decode0 (by simpa [decodeWord, h0] using h)
  · obtain rfl : .jp (fieldNNN op) = i := by simpa [decodeWord, h1] using h
    exact encodeNNN_of_fieldH h1
  · obtain rfl : .call (fieldNNN op) = i := by simpa [decodeWord, h2] using h
    exact encodeNNN_of_fieldH h2
  · obtain rfl : .seImm (fieldX op) (fieldKK op) = i := by simpa [decodeWord, h3] using h
    exact encodeXKK_of_fieldH h3
  · obtain rfl : .sneImm (fieldX op) (fieldKK op) = i := by simpa [decodeWord, h4] using h
    exact encodeXKK_of_fieldH h4
  · obtain ⟨hn, rfl⟩ : fieldN op = 0x0#4 ∧ .seReg (fieldX op) (fieldY op) = i := by simpa [decodeWord, h5] using h
    exact encodeXYN_of_fields h5 hn
  · obtain rfl : .ldImm (fieldX op) (fieldKK op) = i := by simpa [decodeWord, h6] using h
    exact encodeXKK_of_fieldH h6
  · obtain rfl : .addImm (fieldX op) (fieldKK op) = i := by simpa [decodeWord, h7] using h
    exact encodeXKK_of_fieldH h7
  · exact (encode_of_decode8 (by simpa [decodeWord, h8] using h)).trans (encodeXYN_of_fieldH h8)
  · obtain ⟨hn, rfl⟩ : fieldN op = 0x0#4 ∧ .sneReg (fieldX op) (fieldY op) = i := by simpa [decodeWord, h9] using h
    exact encodeXYN_of_fields h9 hn
  · obtain rfl : .ldI (fieldNNN op) = i := by simpa [decodeWord, hA] using h
    exact encodeNNN_of_fieldH hA
  · obtain rfl : .jpV0 (fieldNNN op) = i := by simpa [decodeWord, hB] using h
    exact encodeNNN_of_fieldH hB
  · obtain rfl : .rnd (fieldX op) (fieldKK op) = i := by simpa [decodeWord, hC] using h
    exact encodeXKK_of_fieldH hC
  · obtain rfl : .drw (fieldX op) (fieldY op) (fieldN op) = i := by simpa [decodeWord, hD] using h
    exact encodeXYN_of_fieldH hD
  · exact (encode_of_decodeE (by simpa [decodeWord, hE] using h)).trans (encodeXKK_of_fieldH hE)
  · exact (encode_of_decodeF (by simpa [decodeWord, hF] using h)).trans (encodeXKK_of_fieldH hF)

/-- Settles O2: the fields of a word make the word again. -/
theorem encodeOfDecodeIsTheWord : Obligations.EncodeOfDecodeIsTheWord := by
  unfold Obligations.EncodeOfDecodeIsTheWord
  intro op i h
  exact encode_of_decodeWord h

/-! ### The mask/match table (R160) -/

/-- The encoded word of every instruction passes the test of its own row. -/
theorem rowOf_accepts_encode : ∀ i : Instr, (rowOf i).accepts (encode i) = true
  | .cls => TableRow.cls
  | .ret => TableRow.ret
  | .jp nnn => TableRow.jp nnn
  | .call nnn => TableRow.call nnn
  | .seImm x kk => TableRow.seImm x kk
  | .sneImm x kk => TableRow.sneImm x kk
  | .seReg x y => TableRow.seReg x y
  | .ldImm x kk => TableRow.ldImm x kk
  | .addImm x kk => TableRow.addImm x kk
  | .ldReg x y => TableRow.ldReg x y
  | .orReg x y => TableRow.orReg x y
  | .andReg x y => TableRow.andReg x y
  | .xorReg x y => TableRow.xorReg x y
  | .addReg x y => TableRow.addReg x y
  | .subReg x y => TableRow.subReg x y
  | .shr x y => TableRow.shr x y
  | .subnReg x y => TableRow.subnReg x y
  | .shl x y => TableRow.shl x y
  | .sneReg x y => TableRow.sneReg x y
  | .ldI nnn => TableRow.ldI nnn
  | .jpV0 nnn => TableRow.jpV0 nnn
  | .rnd x kk => TableRow.rnd x kk
  | .drw x y n => TableRow.drw x y n
  | .skp x => TableRow.skp x
  | .sknp x => TableRow.sknp x
  | .ldVxDt x => TableRow.ldVxDt x
  | .ldVxK x => TableRow.ldVxK x
  | .ldDtVx x => TableRow.ldDtVx x
  | .ldStVx x => TableRow.ldStVx x
  | .addIVx x => TableRow.addIVx x
  | .ldFVx x => TableRow.ldFVx x
  | .ldBVx x => TableRow.ldBVx x
  | .ldMemVx x => TableRow.ldMemVx x
  | .ldVxMem x => TableRow.ldVxMem x

/-- The fields of a masked word are its fields under the fields of the mask. -/
theorem fieldH_and (op m : Word) : fieldH (op &&& m) = fieldH op &&& fieldH m := BitVec.extractLsb'_and
theorem fieldN_and (op m : Word) : fieldN (op &&& m) = fieldN op &&& fieldN m := BitVec.extractLsb'_and
theorem fieldKK_and (op m : Word) : fieldKK (op &&& m) = fieldKK op &&& fieldKK m := BitVec.extractLsb'_and

/-- The fields of a word written out. -/
theorem fieldH_ofNat (n : Nat) : fieldH (BitVec.ofNat 16 n) = BitVec.ofNat 4 (n / 4096) := by
  apply BitVec.eq_of_toNat_eq
  rw [fieldH, BitVec.extractLsb'_toNat, BitVec.toNat_ofNat, BitVec.toNat_ofNat, Nat.shiftRight_eq_div_pow]
  omega
theorem fieldN_ofNat (n : Nat) : fieldN (BitVec.ofNat 16 n) = BitVec.ofNat 4 n := by
  apply BitVec.eq_of_toNat_eq
  simp [fieldN, BitVec.extractLsb'_toNat]
theorem fieldKK_ofNat (n : Nat) : fieldKK (BitVec.ofNat 16 n) = BitVec.ofNat 8 n := by
  apply BitVec.eq_of_toNat_eq
  simp [fieldKK, BitVec.extractLsb'_toNat]

/-- Every row compares the whole high nibble. -/
theorem fieldH_of_accepts (h : (rowOf i).accepts op = true) : fieldH op = fieldH (rowOf i).pattern := by
  have hmask : fieldH (rowOf i).mask = BitVec.allOnes 4 := by cases i <;> simp [rowOf, fieldH_ofNat]
  have hm : op &&& (rowOf i).mask = (rowOf i).pattern := beq_iff_eq.mp h
  rw [← hm, fieldH_and, hmask, BitVec.and_allOnes]

/-- A row with a sub-selector in the low nibble compares it. -/
theorem fieldN_of_accepts (h : (rowOf i).accepts op = true) (hmask : (rowOf i).mask = 0xF00F#16) :
    fieldN op = fieldN (rowOf i).pattern := by
  have hm : op &&& (rowOf i).mask = (rowOf i).pattern := beq_iff_eq.mp h
  rw [← hm, fieldN_and, hmask, show fieldN 0xF00F#16 = BitVec.allOnes 4 from rfl, BitVec.and_allOnes]

/-- A row with a sub-selector in the low byte compares it. -/
theorem fieldKK_of_accepts (h : (rowOf i).accepts op = true) (hmask : (rowOf i).mask = 0xF0FF#16) :
    fieldKK op = fieldKK (rowOf i).pattern := by
  have hm : op &&& (rowOf i).mask = (rowOf i).pattern := beq_iff_eq.mp h
  rw [← hm, fieldKK_and, hmask, show fieldKK 0xF0FF#16 = BitVec.allOnes 8 from rfl, BitVec.and_allOnes]

/-- A row without operands compares the whole word. -/
theorem eq_of_accepts (h : (rowOf i).accepts op = true) (hmask : (rowOf i).mask = 0xFFFF#16) : op = (rowOf i).pattern := by
  have hm : op &&& (rowOf i).mask = (rowOf i).pattern := beq_iff_eq.mp h
  rw [← hm, hmask, show 0xFFFF#16 = BitVec.allOnes 16 from rfl, BitVec.and_allOnes]

/-- A word that passes the test of an instruction's row decodes to an instruction of that row: the test fixes the high nibble,
and the low nibble or low byte where the row has a sub-selector. -/
theorem decodeWord_of_accepts (h : (rowOf i).accepts op = true) : (decodeWord op).map rowOf = some (rowOf i) := by
  have hH := fieldH_of_accepts h
  cases i
  case cls | ret => rw [eq_of_accepts h rfl]; rfl
  case jp | call | seImm | sneImm | ldImm | addImm | ldI | jpV0 | rnd | drw =>
    simp [decodeWord, hH, rowOf, fieldH_ofNat]
  case seReg | sneReg =>
    simp [decodeWord, hH, fieldN_of_accepts h rfl, rowOf, fieldH_ofNat, fieldN_ofNat]
  case ldReg | orReg | andReg | xorReg | addReg | subReg | shr | subnReg | shl =>
    simp [decodeWord, decode8, hH, fieldN_of_accepts h rfl, rowOf, fieldH_ofNat, fieldN_ofNat]
  case skp | sknp =>
    simp [decodeWord, decodeE, hH, fieldKK_of_accepts h rfl, rowOf, fieldH_ofNat, fieldKK_ofNat]
  case ldVxDt | ldVxK | ldDtVx | ldStVx | addIVx | ldFVx | ldBVx | ldMemVx | ldVxMem =>
    simp [decodeWord, decodeF, hH, fieldKK_of_accepts h rfl, rowOf, fieldH_ofNat, fieldKK_ofNat]

/-- The rows of the table are the rows of the instructions. -/
theorem mem_opcodeTable (r : OpcodeRow) : r ∈ opcodeTable ↔ ∃ i, rowOf i = r := by
  constructor
  · intro h
    obtain ⟨i, -, hi⟩ := List.mem_map.mp h
    exact ⟨i, hi⟩
  · rintro ⟨i, rfl⟩
    cases i <;> (simp only [rowOf]; decide)

/-- A row of the table accepts a word exactly when the word decodes to an instruction of that row. -/
theorem accepts_iff {r : OpcodeRow} (hr : r ∈ opcodeTable) : r.accepts op = true ↔ (decodeWord op).map rowOf = some r := by
  constructor
  · obtain ⟨i, rfl⟩ := (mem_opcodeTable r).mp hr
    exact decodeWord_of_accepts
  · intro h
    obtain ⟨i, hi, rfl⟩ := Option.map_eq_some_iff.mp h
    exact encode_of_decodeWord hi ▸ rowOf_accepts_encode i

/-- No row stands twice in the table. -/
theorem opcodeTable_nodup : opcodeTable.Nodup := by decide

/-- At most one row accepts a word: that of the instruction it decodes to. -/
theorem accepts_length_le_one : (opcodeTable.filter fun r => r.accepts op).length ≤ 1 := by
  have hnd : (opcodeTable.filter fun r => r.accepts op).Nodup := opcodeTable_nodup.filter _
  rw [← List.toFinset_card_of_nodup hnd, Finset.card_le_one]
  intro r hr r' hr'
  obtain ⟨hmem, hacc⟩ := List.mem_filter.mp (List.mem_toFinset.mp hr)
  obtain ⟨hmem', hacc'⟩ := List.mem_filter.mp (List.mem_toFinset.mp hr')
  have hrow : some r = some r' := ((accepts_iff hmem).mp hacc).symm.trans ((accepts_iff hmem').mp hacc')
  exact Option.some.inj hrow

/-- Some row accepts a word exactly when it decodes. -/
theorem isSome_decodeWord : (decodeWord op).isSome = opcodeTable.any fun r => r.accepts op := by
  rw [Bool.eq_iff_iff, List.any_eq_true]
  constructor
  · intro h
    obtain ⟨i, hi⟩ := Option.isSome_iff_exists.mp h
    have hr : rowOf i ∈ opcodeTable := (mem_opcodeTable _).mpr ⟨i, rfl⟩
    exact ⟨rowOf i, hr, (accepts_iff hr).mpr (by simp [hi])⟩
  · rintro ⟨r, hr, ha⟩
    obtain ⟨i, hi, -⟩ := Option.map_eq_some_iff.mp ((accepts_iff hr).mp ha)
    simp [hi]

/-- Settles O3: a row accepts a word exactly when the word decodes to an instruction of that row. -/
theorem decoderIsTheMaskMatchTable : Obligations.DecoderIsTheMaskMatchTable := by
  unfold Obligations.DecoderIsTheMaskMatchTable
  refine ⟨rfl, fun op => ⟨isSome_decodeWord, fun i hi => ?_, accepts_length_le_one⟩⟩
  exact (accepts_iff ((mem_opcodeTable _).mpr ⟨i, rfl⟩)).mpr (by simp [hi])

/-! ### The illegal words (R162) -/

/-- Family 0 has two words. -/
theorem decode0_eq_none : decode0 op = none ↔ op ≠ 0x00E0#16 ∧ op ≠ 0x00EE#16 := by
  unfold decode0
  split_ifs <;> simp_all

/-- Family 8 has the sub-selectors 0 to 7 and E. -/
theorem decode8_eq_none : decode8 op = none ↔ 8 ≤ (fieldN op).toNat ∧ fieldN op ≠ 0xE#4 := by
  rcases nibble_cases (fieldN op) with h | h | h | h | h | h | h | h | h | h | h | h | h | h | h | h <;> simp [decode8, h]

/-- Family E has two sub-selectors. -/
theorem decodeE_eq_none : decodeE op = none ↔ fieldKK op ≠ 0x9E#8 ∧ fieldKK op ≠ 0xA1#8 := by
  simp only [decodeE]
  split_ifs <;> simp_all

/-- Family F has nine sub-selectors. -/
theorem decodeF_eq_none :
    decodeF op = none ↔ fieldKK op ∉ [0x07#8, 0x0A#8, 0x15#8, 0x18#8, 0x1E#8, 0x29#8, 0x33#8, 0x55#8, 0x65#8] := by
  simp only [decodeF]
  split_ifs <;> simp_all

/-- Settles O4: family by family, by the value of the high nibble. -/
theorem illegalWordsByFamily : Obligations.IllegalWordsByFamily := by
  unfold Obligations.IllegalWordsByFamily
  intro op
  rcases nibble_cases (fieldH op) with h | h | h | h | h | h | h | h | h | h | h | h | h | h | h | h <;>
    simp [decodeWord, h, decode0_eq_none, decode8_eq_none, decodeE_eq_none, decodeF_eq_none]

/-- Settles O5: each word decodes by evaluation. -/
theorem sampleWordsDecode : Obligations.SampleWordsDecode := by
  unfold Obligations.SampleWordsDecode
  decide

end Sys2Proof.Proofs.Encoding
end

section
/-! What one execution can do (R170): every instruction writes its own components and sets `pc`, or blocks on a key, or faults. -/

namespace Sys2Proof.Proofs.Execution

open Sys2Proof.Machine Sys2Proof.Safety Sys2Proof.Laws.State Sys2Proof.Laws.Ops

/-! ### What an instruction writes -/

/-- The register an instruction names as the one it writes, but for the writers of the flag and the block load. -/
def destination : Instr → Option RegIx
  | .ldImm x _ | .addImm x _ | .ldReg x _ | .orReg x _ | .andReg x _ | .xorReg x _ | .rnd x _ | .ldVxDt x | .ldVxK x => some x
  | _ => none

/-- The arithmetic instructions that write a flag (R256 to R260). -/
def isFlagged : Instr → Bool
  | .addReg _ _ | .subReg _ _ | .shr _ _ | .subnReg _ _ | .shl _ _ => true
  | _ => false

/-- The instructions that only move `I` (R300 to R302). -/
def isIndexWrite : Instr → Bool
  | .ldI _ | .addIVx _ | .ldFVx _ => true
  | _ => false

/-- `u` is `s` with what the instruction `i` writes beside `pc`. -/
inductive Writes (i : Instr) (s : State) : State → Prop
  | nothing : Writes i s s
  | register (x : RegIx) (b : Byte) (hi : destination i = some x) : Writes i s (s.setReg x b)
  | flagged (x : RegIx) (b : Byte) (c : Bool) (hi : isFlagged i = true) : Writes i s (s.setRegFlag x b c)
  | index (n : Nat) (hi : isIndexWrite i = true) : Writes i s (s.setI n)
  | decimal (x : RegIx) (b₀ b₁ b₂ : Byte) (hi : i = .ldBVx x) :
      Writes i s (((s.writeByte (s.effective 0) b₀).writeByte (s.effective 1) b₁).writeByte (s.effective 2) b₂)
  | store (x : RegIx) (hi : i = .ldMemVx x) : Writes i s ((s.storeRegs (x.toNat + 1)).bumpI x)
  | load (x : RegIx) (hi : i = .ldVxMem x) : Writes i s ((s.loadRegs (x.toNat + 1)).bumpI x)
  | clear (d : Display) (hi : i = .cls) : Writes i s (s.setDisp d)
  | draw (x y : RegIx) (n : Nibble) (d : Display) (b : Byte) (hi : i = .drw x y n) : Writes i s ((s.setDisp d).setReg vf b)
  | call (nnn : Addr) (n : Nat) (hi : i = .call nnn) (hd : s.depth < stackDepth) : Writes i s (s.push n)
  | ret (top : Word) (rest : List Word) (hi : i = .ret) (hs : s.stack = top :: rest) : Writes i s { s with stack := rest }
  | delay (x : RegIx) (b : Byte) (hi : i = .ldDtVx x) : Writes i s (s.setDt b)
  | sound (x : RegIx) (b : Byte) (hi : i = .ldStVx x) : Writes i s (s.setSt b)

/-- `f` is the fault of the instruction `i` in `s` (R201, R203, R302, R406). -/
def Faults (i : Instr) (s : State) (f : Fault) : Prop :=
  (i = .ret ∧ s.stack = [] ∧ f = .stackUnderflow (encode i) s.pc) ∨
  (∃ nnn, i = .call nnn ∧ 16 ≤ s.depth ∧ f = .stackOverflow (encode i) s.pc) ∨
  (∃ x, (i = .skp x ∨ i = .sknp x ∨ i = .ldFVx x) ∧ 0xF < (s.reg x).toNat ∧ s.cfg.rangePolicy = .refuse ∧
    f = .outOfSpec (encode i) s.pc)

/-! ### The instructions with more than one outcome -/

variable (s : State) (x : RegIx)

/-- An operand that is no nibble is above 0xF under `refuse`. -/
theorem nibbleOperand_none {b : Byte} : s.nibbleOperand b = none ↔ 0xF < b.toNat ∧ s.cfg.rangePolicy = .refuse := by
  rw [nibbleOperand_eq]
  split <;> simp_all

theorem exec_ret_nil (h : s.stack = []) : exec .ret s = .fault (.stackUnderflow (encode .ret) s.pc) := by
  simp [exec, execRet, pop_nil s h, State.raise]

theorem exec_ret_cons {top : Word} {rest : List Word} (h : s.stack = top :: rest) :
    exec .ret s = .next (({ s with stack := rest } : State).setPc top.toNat) := by
  simp [exec, execRet, pop_cons s h]

theorem exec_call_push (nnn : Addr) (h : s.depth < stackDepth) :
    exec (.call nnn) s = .next ((s.push (s.pc.toNat + 2)).setPc nnn.toNat) := if_pos h

theorem exec_call_full (nnn : Addr) (h : ¬ s.depth < stackDepth) :
    exec (.call nnn) s = .fault (.stackOverflow (encode (.call nnn)) s.pc) := if_neg h

theorem exec_skp_none (h : s.nibbleOperand (s.reg x) = none) :
    exec (.skp x) s = .fault (.outOfSpec (encode (.skp x)) s.pc) := by
  simp [exec, execSkp, h, State.raise]

theorem exec_skp_some {k : Nibble} (h : s.nibbleOperand (s.reg x) = some k) :
    exec (.skp x) s = .next (s.skipIf (s.key k.toFin)) := by
  simp [exec, execSkp, h]

theorem exec_sknp_none (h : s.nibbleOperand (s.reg x) = none) :
    exec (.sknp x) s = .fault (.outOfSpec (encode (.sknp x)) s.pc) := by
  simp [exec, execSknp, h, State.raise]

theorem exec_sknp_some {k : Nibble} (h : s.nibbleOperand (s.reg x) = some k) :
    exec (.sknp x) s = .next (s.skipIf (!s.key k.toFin)) := by
  simp [exec, execSknp, h]

theorem exec_ldFVx_none (h : s.nibbleOperand (s.reg x) = none) :
    exec (.ldFVx x) s = .fault (.outOfSpec (encode (.ldFVx x)) s.pc) := by
  simp [exec, execLdFVx, h, State.raise]

theorem exec_ldFVx_some {d : Nibble} (h : s.nibbleOperand (s.reg x) = some d) :
    exec (.ldFVx x) s = .next (s.setI (s.glyphAddress d)).advance := by
  simp [exec, execLdFVx, h]

theorem exec_ldVxK_none (h : lowestKey s.firstCandidate = none) : exec (.ldVxK x) s = .next (s.blockOn x) := by
  simp [exec, execLdVxK, h]

theorem exec_ldVxK_some {k : Nibble} (h : lowestKey s.firstCandidate = some k) :
    exec (.ldVxK x) s = .next (s.takeKey x k) := by
  simp [exec, execLdVxK, h]

/-! ### The cases of an execution -/

/-- An execution writes what its instruction writes and sets `pc`, or blocks on a key, or faults as listed. -/
theorem exec_cases (i : Instr) :
    (∃ u n, Writes i s u ∧ exec i s = .next (u.setPc n)) ∨
    (∃ x, i = .ldVxK x ∧ exec i s = .next (s.blockOn x)) ∨
    (∃ f, Faults i s f ∧ exec i s = .fault f) := by
  cases i
  case jp | seImm | sneImm | seReg | sneReg | jpV0 => exact .inl ⟨_, _, .nothing, rfl⟩
  case ldImm | addImm | ldReg | orReg | andReg | xorReg | rnd | ldVxDt => exact .inl ⟨_, _, .register _ _ rfl, rfl⟩
  case addReg | subReg | shr | subnReg | shl => exact .inl ⟨_, _, .flagged _ _ _ rfl, rfl⟩
  case ldI | addIVx => exact .inl ⟨_, _, .index _ rfl, rfl⟩
  case cls => exact .inl ⟨_, _, .clear _ rfl, rfl⟩
  case drw => exact .inl ⟨_, _, .draw _ _ _ _ _ rfl, rfl⟩
  case ldDtVx => exact .inl ⟨_, _, .delay _ _ rfl, rfl⟩
  case ldStVx => exact .inl ⟨_, _, .sound _ _ rfl, rfl⟩
  case ldBVx => exact .inl ⟨_, _, .decimal _ _ _ _ rfl, rfl⟩
  case ldMemVx => exact .inl ⟨_, _, .store _ rfl, rfl⟩
  case ldVxMem => exact .inl ⟨_, _, .load _ rfl, rfl⟩
  case ret =>
    cases h : s.stack with
    | nil => exact .inr (.inr ⟨_, .inl ⟨rfl, h, rfl⟩, exec_ret_nil s h⟩)
    | cons top rest => exact .inl ⟨_, _, .ret top rest rfl h, exec_ret_cons s h⟩
  case call nnn =>
    by_cases h : s.depth < stackDepth
    · exact .inl ⟨_, _, .call nnn _ rfl h, exec_call_push s nnn h⟩
    · exact .inr (.inr ⟨_, .inr (.inl ⟨nnn, rfl, Nat.le_of_not_lt h, rfl⟩), exec_call_full s nnn h⟩)
  case skp x =>
    cases h : s.nibbleOperand (s.reg x) with
    | none =>
      obtain ⟨hb, hp⟩ := (nibbleOperand_none s).mp h
      exact .inr (.inr ⟨_, .inr (.inr ⟨x, .inl rfl, hb, hp, rfl⟩), exec_skp_none s x h⟩)
    | some k => exact .inl ⟨_, _, .nothing, exec_skp_some s x h⟩
  case sknp x =>
    cases h : s.nibbleOperand (s.reg x) with
    | none =>
      obtain ⟨hb, hp⟩ := (nibbleOperand_none s).mp h
      exact .inr (.inr ⟨_, .inr (.inr ⟨x, .inr (.inl rfl), hb, hp, rfl⟩), exec_sknp_none s x h⟩)
    | some k => exact .inl ⟨_, _, .nothing, exec_sknp_some s x h⟩
  case ldFVx x =>
    cases h : s.nibbleOperand (s.reg x) with
    | none =>
      obtain ⟨hb, hp⟩ := (nibbleOperand_none s).mp h
      exact .inr (.inr ⟨_, .inr (.inr ⟨x, .inr (.inr rfl), hb, hp, rfl⟩), exec_ldFVx_none s x h⟩)
    | some d => exact .inl ⟨_, _, .index _ rfl, exec_ldFVx_some s x h⟩
  case ldVxK x =>
    cases h : lowestKey s.firstCandidate with
    | none => exact .inr (.inl ⟨x, rfl, exec_ldVxK_none s x h⟩)
    | some k => exact .inl ⟨_, _, .register x _ rfl, exec_ldVxK_some s x h⟩

variable {s x} {i : Instr} {t u : State} {f : Fault}

/-- An execution that answers a next state wrote and set `pc`, or blocked on a key. -/
theorem exec_next_cases (h : exec i s = .next t) :
    (∃ u n, Writes i s u ∧ t = u.setPc n) ∨ (∃ x, i = .ldVxK x ∧ t = s.blockOn x) := by
  rcases exec_cases s i with ⟨u, n, hu, he⟩ | ⟨x, hi, he⟩ | ⟨f, -, he⟩ <;> rw [he] at h <;> cases h
  · exact .inl ⟨u, n, hu, rfl⟩
  · exact .inr ⟨x, hi, rfl⟩

/-- The faults of an execution are exactly the listed ones (R451). -/
theorem exec_fault_iff : exec i s = .fault f ↔ Faults i s f := by
  constructor
  · intro h
    rcases exec_cases s i with ⟨u, n, -, he⟩ | ⟨x, -, he⟩ | ⟨g, hg, he⟩ <;> rw [he] at h <;> cases h
    exact hg
  · rintro (⟨rfl, hs, rfl⟩ | ⟨nnn, rfl, hd, rfl⟩ | ⟨x, rfl | rfl | rfl, hb, hp, rfl⟩)
    · exact exec_ret_nil s hs
    · exact exec_call_full s nnn (Nat.not_lt.mpr hd)
    · exact exec_skp_none s x ((nibbleOperand_none s).mpr ⟨hb, hp⟩)
    · exact exec_sknp_none s x ((nibbleOperand_none s).mpr ⟨hb, hp⟩)
    · exact exec_ldFVx_none s x ((nibbleOperand_none s).mpr ⟨hb, hp⟩)

/-- No execution is refused. -/
theorem exec_ne_refused (r : Refusal) : exec i s ≠ .refused r := by
  intro h
  rcases exec_cases s i with ⟨u, n, -, he⟩ | ⟨x, -, he⟩ | ⟨g, -, he⟩ <;> rw [he] at h <;> cases h

/-! ### The cases of a wait step -/

/-- A wait step takes a key and ends the wait, or only remembers the snapshot (R420). -/
theorem waitStep_cases (h : waitStep x s = .next t) :
    (∃ k, lowestKey s.waitCandidate = some k ∧ t = (s.takeKey x k).setWait none) ∨
    (lowestKey s.waitCandidate = none ∧ t = s.rememberKeys) := by
  unfold waitStep at h
  split at h <;> cases h
  · exact .inl ⟨_, ‹_›, rfl⟩
  · exact .inr ⟨‹_›, rfl⟩

/-! ### What the writes of an instruction keep -/

/-- No instruction writes the wait state but by blocking. -/
theorem Writes.waiting (h : Writes i s u) : WaitKept s u := by
  cases h with
  | store => rw [storeRegs_eq]; exact ⟨rfl, rfl⟩
  | load => rw [loadRegs_eq]; exact ⟨rfl, rfl⟩
  | _ => exact ⟨rfl, rfl⟩

/-- No instruction writes the inputs or the configuration. -/
theorem Writes.inputs (h : Writes i s u) : InputsKept s u := by
  cases h with
  | store => rw [storeRegs_eq]; exact ⟨rfl, rfl, rfl, rfl, rfl⟩
  | load => rw [loadRegs_eq]; exact ⟨rfl, rfl, rfl, rfl, rfl⟩
  | _ => exact ⟨rfl, rfl, rfl, rfl, rfl⟩

end Sys2Proof.Proofs.Execution
end

section
/-! Proofs of the family 10_state.md: the invariant at reset, along every step, every move of the host and every run. -/

namespace Sys2Proof.Proofs.Invariant

open Sys2Proof.Machine Sys2Proof.Safety Sys2Proof.Laws.State Sys2Proof.Laws.Memory Sys2Proof.Laws.Ops Sys2Proof.Laws.Session
open Sys2Proof.Proofs.Execution
open Sys2Proof.Proofs.Encoding (encode_of_decodeWord)

/-! ### The clauses that do not speak of `pc` -/

/-- The invariant without `pc` and the blocked instruction: what the writes of an instruction keep. -/
structure Bounded (s : State) : Prop where
  memory : Canonical s
  index : s.i.toNat < 0x1000
  depth : s.depth ≤ stackDepth
  entries : ∀ a ∈ s.stack, a.toNat < 0x1000

variable {s t u : State} {i : Instr} {x : RegIx}

/-- The clauses of the invariant that the writes of an instruction concern. -/
theorem Bounded.of_inv (h : Inv s) : Bounded s := ⟨h.memory, h.index, h.depth, h.entries⟩

/-- A bounded state with `pc` in range and no wait pending meets the invariant: there is no blocked instruction. -/
theorem Bounded.inv (h : Bounded s) (hpc : s.pc.toNat < 0x1000) (hw : s.wait = none) : Inv s :=
  ⟨h.memory, h.index, hpc, h.depth, h.entries, fun x hx => by rw [hw] at hx; cases hx⟩

/-- Wherever `pc` is set to, it is in range. -/
theorem Bounded.inv_setPc (h : Bounded s) (hw : s.wait = none) (n : Nat) : Inv (s.setPc n) :=
  Bounded.inv ⟨h.memory, h.index, h.depth, h.entries⟩ (wrap12_lt n) hw

/-- Moving `I` past a block keeps it in range. -/
theorem Bounded.bumpI (h : Bounded s) : Bounded (s.bumpI x) where
  memory := h.memory
  index := by
    rw [bumpI_i]
    split
    · exact wrap12_lt _
    · exact h.index
  depth := h.depth
  entries := h.entries

/-- A state that has everything but its registers and its memory from a bounded one. -/
theorem Bounded.of_mem (h : Bounded s) (hm : Canonical t) (hi : t.i = s.i) (hs : t.stack = s.stack) : Bounded t where
  memory := hm
  index := hi ▸ h.index
  depth := by rw [State.depth, hs]; exact h.depth
  entries := hs ▸ h.entries

/-- The writes of every instruction keep the bounds: each address is wrapped, and CALL checks the depth. -/
theorem Writes.bounded (hw : Writes i s u) (h : Bounded s) : Bounded u := by
  cases hw with
  | index n => exact ⟨h.memory, wrap12_lt n, h.depth, h.entries⟩
  | decimal =>
    exact h.of_mem (writeByte_canonical _ _ _ (writeByte_canonical _ _ _ (writeByte_canonical _ _ _ h.memory))) rfl rfl
  | store x =>
    refine Bounded.bumpI (h.of_mem (storeRegs_canonical s _ h.memory) ?_ ?_) <;> rw [storeRegs_eq]
  | load x =>
    rw [loadRegs_eq]
    exact Bounded.bumpI ⟨h.memory, h.index, h.depth, h.entries⟩
  | call nnn n _ hd =>
    refine ⟨h.memory, h.index, hd, fun a ha => ?_⟩
    rcases List.mem_cons.mp ha with rfl | ha
    · exact wrap12_lt n
    · exact h.entries a ha
  | ret top rest _ hs =>
    refine ⟨h.memory, h.index, ?_, fun a ha => h.entries a (hs ▸ List.mem_cons_of_mem top ha)⟩
    have hdepth : rest.length + 1 ≤ stackDepth := by simpa [State.depth, hs] using h.depth
    exact Nat.le_of_succ_le hdepth
  | _ => exact ⟨h.memory, h.index, h.depth, h.entries⟩

/-! ### The step -/

/-- The inputs of a step are no part of the invariant. -/
theorem inv_latch (h : Inv s) (ks : Keys) (r : Byte) : Inv (s.latch ks r) :=
  ⟨h.memory, h.index, h.pc, h.depth, h.entries, h.blocked⟩

/-- The timers are no part of the invariant. -/
theorem inv_ticks (h : Inv s) (n : Nat) : Inv (s.ticks n) :=
  ⟨h.memory, h.index, h.pc, h.depth, h.entries, h.blocked⟩

/-- The remembered snapshot is no part of the invariant. -/
theorem inv_rememberKeys (h : Inv s) : Inv s.rememberKeys :=
  ⟨h.memory, h.index, h.pc, h.depth, h.entries, h.blocked⟩

/-- The host's turn touches only timers, inputs and the model's own fields. -/
theorem inv_beginTurn (h : Inv s) : Inv s.beginTurn :=
  ⟨h.memory, h.index, h.pc, h.depth, h.entries, h.blocked⟩

/-- An instruction that blocks is the one at `pc`, where it stays. -/
theorem inv_blockOn (h : Inv s) (hop : s.fetchPc = encode (.ldVxK x)) : Inv (s.blockOn x) :=
  ⟨h.memory, h.index, h.pc, h.depth, h.entries, fun y hy => by cases hy; exact hop⟩

/-- A wait step keeps the invariant: with a key the wait ends, without one the blocked instruction stays at `pc`. -/
theorem waitStep_keeps_inv (h : Inv s) (hn : waitStep x s = .next t) : Inv t := by
  rcases waitStep_cases hn with ⟨k, -, rfl⟩ | ⟨-, rfl⟩
  · exact Bounded.inv ⟨h.memory, h.index, h.depth, h.entries⟩ (wrap12_lt _) rfl
  · exact inv_rememberKeys h

/-- An instruction executed at its own word, with no wait pending, keeps the invariant. -/
theorem exec_keeps_inv (h : Inv s) (hw : s.wait = none) (hop : s.fetchPc = encode i) (hn : exec i s = .next t) : Inv t := by
  rcases exec_next_cases hn with ⟨u, n, hu, rfl⟩ | ⟨x, rfl, rfl⟩
  · exact (Writes.bounded hu (.of_inv h)).inv_setPc (hu.waiting.wait.trans hw) n
  · exact inv_blockOn h hop

/-- One instruction cycle keeps the invariant. -/
theorem cycle_keeps_inv (h : Inv s) (hn : cycle s = .next t) : Inv t := by
  rcases cycle_cases s with ⟨x, -, he⟩ | ⟨-, -, he⟩ | ⟨i, hw, hd, he⟩ <;> rw [he] at hn
  · exact waitStep_keeps_inv h hn
  · cases hn
  · exact exec_keeps_inv h hw (encode_of_decodeWord hd).symm hn

/-- Settles O58: the host's turn keeps the invariant, and so does the instruction cycle. -/
theorem everyStepKeepsTheInvariant : Obligations.EveryStepKeepsTheInvariant := by
  unfold Obligations.EveryStepKeepsTheInvariant
  intro s t h hn
  exact cycle_keeps_inv (inv_beginTurn h) hn

/-! ### The session -/

variable {σ τ : Session}

/-- A step of the session keeps its invariant: a next state by the step lemma; a fault leaves the machine, which then does not
wait, and marks the session. -/
theorem step_keeps_sessionInv {ks : Keys} {r : Byte} (h : SessionInv σ) (hm : σ.step ks r = .session τ) : SessionInv τ := by
  rcases step_cases hm with ⟨t, ht, rfl⟩ | ⟨f, hf, rfl⟩
  · exact {
      machine := cycle_keeps_inv (inv_latch h.machine ks r) ht
      waiting := by rw [Option.some_inj]; exact stepOutcome_waiting t
      marked := fun f hl => absurd (Option.some.inj hl) (stepOutcome_ne_fault t f) }
  · exact {
      machine := h.machine
      waiting := by simp [coreStep_fault_wait hf]
      marked := fun _ _ => rfl }

/-- Ticks keep the session's invariant. -/
theorem tick_keeps_sessionInv (h : SessionInv σ) : SessionInv { σ with machine := σ.machine.tick } :=
  ⟨inv_ticks h.machine 1, h.waiting, h.marked⟩

/-- A skip keeps the session's invariant: it follows a fault, so that no wait is pending and `pc` may move. -/
theorem skip_keeps_sessionInv (h : SessionInv σ) (hm : σ.skip = .session τ) : SessionInv τ := by
  obtain ⟨f, hl, -, rfl⟩ := skip_cases hm
  have hw : σ.machine.wait = none := by
    rw [← Option.not_isSome_iff_eq_none, ← h.waiting, hl]
    simp
  exact ⟨(Bounded.of_inv h.machine).inv_setPc hw _, h.waiting, h.marked⟩

/-- Every move of the host keeps the session's invariant. -/
theorem move_keeps_sessionInv (op : HostOp) (σ τ : Session) (h : SessionInv σ) (hm : σ.move op = .session τ) :
    SessionInv τ := by
  rcases move_cases hm with ⟨ks, r, -, hs⟩ | ⟨-, rfl⟩ | ⟨-, rfl⟩ | ⟨-, hs⟩
  · exact step_keeps_sessionInv h hs
  · exact tick_keeps_sessionInv h
  · exact h
  · exact skip_keeps_sessionInv h hs

/-- Settles O59: by the kinds of moves. -/
theorem everyMoveKeepsTheSessionInvariant : Obligations.EveryMoveKeepsTheSessionInvariant := by
  unfold Obligations.EveryMoveKeepsTheSessionInvariant
  exact move_keeps_sessionInv

/-! ### Construction -/

/-- A construction that succeeds: an admitted ROM and font, and the ROM placed in the blank machine (R501). -/
theorem construct_ok {rom : List Byte} {c : Config} (h : construct rom c = .ok s) :
    rom.length ≤ 3584 ∧ c.fontBase.toNat + 80 ≤ 0x200 ∧ s = (State.blank c).writeBytes 0x200 rom := by
  unfold construct at h
  split_ifs at h with hrom hfont
  cases h
  exact ⟨by simpa [romFits] using hrom, by simpa [Config.wellFormed] using hfont, rfl⟩

/-- The machine before the ROM is loaded lists no byte, and everything else is 0 or empty. -/
theorem blank_bounded (c : Config) : Bounded (State.blank c) :=
  ⟨rfl, Nat.zero_lt_succ _, Nat.zero_le _, fun _ ha => absurd ha List.not_mem_nil⟩

/-- Every constructed machine meets the invariant. -/
theorem construct_inv {rom : List Byte} {c : Config} (h : construct rom c = .ok s) : Inv s ∧ s.wait = none := by
  obtain ⟨-, -, rfl⟩ := construct_ok h
  have hmem : Canonical ((State.blank c).writeBytes 0x200 rom) := writeBytes_canonical _ _ rom (blank_bounded c).memory
  have hrest := writeBytes_eq (State.blank c) 0x200 rom
  have hw : ((State.blank c).writeBytes 0x200 rom).wait = none := by rw [hrest]; rfl
  refine ⟨Bounded.inv ((blank_bounded c).of_mem hmem ?_ ?_) ?_ hw, hw⟩ <;> rw [hrest]
  show (0x0200#16).toNat < 0x1000
  decide

/-- Settles O57: the reset state is the construction of an empty ROM. -/
theorem resetMeetsTheInvariant : Obligations.ResetMeetsTheInvariant := by
  unfold Obligations.ResetMeetsTheInvariant
  have h : construct [] defaultConfig = .ok State.reset := rfl
  exact (construct_inv h).1

/-- A session just started meets its invariant. -/
theorem start_sessionInv (h : Inv s) (hw : s.wait = none) : SessionInv (Session.start s) where
  machine := h
  waiting := by simp [Session.start, hw]
  marked := fun f hf => by cases hf

/-- Settles O60: construction meets the session's invariant, and every sequence of moves keeps it. -/
theorem everyReachableSessionMeetsTheInvariant : Obligations.EveryReachableSessionMeetsTheInvariant := by
  unfold Obligations.EveryReachableSessionMeetsTheInvariant
  intro rom c s ops τ hc hrun
  obtain ⟨hinv, hw⟩ := construct_inv hc
  exact (run_keeps move_keeps_sessionInv ops (start_sessionInv hinv hw) hrun).machine

end Sys2Proof.Proofs.Invariant
end

section
/-! Proofs of the families 00_scope.md and 30_encoding.md: the host's turn and the instruction cycle (R170, R431, R455). -/

namespace Sys2Proof.Proofs.Cycle

open Sys2Proof.Machine Sys2Proof.Laws.Ops
open Sys2Proof.Proofs.Execution

variable {s : State} {i : Instr}

/-- With no wait pending and an instruction at `pc`, the cycle executes it. -/
theorem cycle_of_decodeWord (hw : s.wait = none) (hd : decodeWord s.fetchPc = some i) : cycle s = exec i s := by
  simp [cycle, hw, execute, hd]

/-- With no wait pending and no instruction at `pc`, the cycle faults (R162). -/
theorem cycle_of_illegal (hw : s.wait = none) (hd : decodeWord s.fetchPc = none) :
    cycle s = .fault (.unknownOpcode s.fetchPc s.pc) := by
  simp [cycle, hw, execute, hd, State.raise]

/-- The byte decoder accepts two bytes only when their word is the instruction. -/
theorem decodeWord_of_decode_pair {a b : Byte} {rest : List Byte} (h : decode [a, b] = .ok (i, rest)) :
    decodeWord (wordOfBytes a b) = some i := by
  simp only [decode] at h
  split at h <;> cases h
  assumption

/-- Settles O7: the turn leaves memory, `pc` and the wait as they are, and the cycle executes what the bytes at `pc` decode
to. -/
theorem stepRunsTheDecodedInstruction : Obligations.StepRunsTheDecodedInstruction := by
  unfold Obligations.StepRunsTheDecodedInstruction
  intro s i rest hw hd _
  exact cycle_of_decodeWord (s := s.beginTurn) hw (decodeWord_of_decode_pair hd)

/-- Settles O8: the turn leaves memory, `pc` and the wait as they are, and the cycle faults. -/
theorem stepOnAnIllegalWordFaults : Obligations.StepOnAnIllegalWordFaults := by
  unfold Obligations.StepOnAnIllegalWordFaults
  intro s hw hd
  exact cycle_of_illegal (s := s.beginTurn) hw hd

/-- The host's next turn where one is written out. -/
theorem nextTurn_cons {t : HostTurn} {ts : List HostTurn} (h : s.turns = t :: ts) : s.nextTurn = t := by
  simp [State.nextTurn, h]

/-- The host's next turn where none is written out: the free values of its number (log 4, 5, 6). -/
theorem nextTurn_nil (h : s.turns = []) :
    s.nextTurn =
      { ticks := Config.freeTicks s.turnsTaken, keys := Config.freeKeys s.turnsTaken, rnd := Config.freeRandom s.turnsTaken } := by
  simp [State.nextTurn, h]

/-- The host's turn, component by component. -/
theorem beginTurn_eq (s : State) :
    s.beginTurn =
      { s with
        dt := timerAfter s.nextTurn.ticks s.dt
        st := timerAfter s.nextTurn.ticks s.st
        keys := s.nextTurn.keys
        rnd := s.nextTurn.rnd
        turns := s.turns.tail
        turnsTaken := s.turnsTaken + 1 } := rfl

/-- Settles O9: the turn is the next one, and the timers after its ticks are their values less the ticks. -/
theorem hostTurnSetsOnlyInputsAndTimers : Obligations.HostTurnSetsOnlyInputsAndTimers := by
  unfold Obligations.HostTurnSetsOnlyInputsAndTimers
  intro s
  refine ⟨s.nextTurn, fun t ts h => nextTurn_cons h, nextTurn_nil, ?_⟩
  rw [beginTurn_eq, timerAfter_eq, timerAfter_eq]

/-- No cycle is refused: a wait step answers a next state, an illegal word faults, and every instruction has a meaning. -/
theorem cycle_ne_refused (s : State) (r : Refusal) : cycle s ≠ .refused r := by
  rcases cycle_cases s with ⟨x, -, he⟩ | ⟨-, -, he⟩ | ⟨i, -, -, he⟩ <;> rw [he]
  · exact nofun
  · exact nofun
  · exact exec_ne_refused r

/-- Settles O10: a step is a cycle. -/
theorem noStepIsRefused : Obligations.NoStepIsRefused := by
  unfold Obligations.NoStepIsRefused
  intro s r
  exact cycle_ne_refused s.beginTurn r

end Sys2Proof.Proofs.Cycle
end

section
/-! Proofs of the family 40_control_flow.md: calls, returns, skips and the indexed jump. -/

namespace Sys2Proof.Proofs.ControlFlow

open Sys2Proof.Machine Sys2Proof.Safety Sys2Proof.Laws.State
open Sys2Proof.Proofs.Execution Sys2Proof.Proofs.Cycle

variable {s t : State}

/-! ### Calls and returns -/

/-- A change of the stack and of `pc` leaves every other component as it was. -/
theorem stackOnly_setPc (s : State) (entries : List Word) (n : Nat) :
    StackOnly s (({ s with stack := entries } : State).setPc n) where
  regs _ _ := rfl
  index := rfl
  bytes _ := rfl
  timers := ⟨rfl, rfl⟩
  display _ _ := rfl
  waiting := ⟨rfl, rfl⟩
  inputs := ⟨rfl, rfl, rfl, rfl, rfl⟩

/-- A wrapped value is not changed by wrapping it again. -/
theorem wrap12_wrap12 (n : Nat) : wrap12 (wrap12 n).toNat = wrap12 n := by
  apply BitVec.eq_of_toNat_eq
  simp

/-- A call that does not fault pushed the address after it and jumped. -/
theorem exec_call_next {nnn : Addr} (h : exec (.call nnn) s = .next t) : t = (s.push (s.pc.toNat + 2)).setPc nnn.toNat := by
  by_cases hd : s.depth < stackDepth
  · rw [exec_call_push s nnn hd] at h
    exact (Host.Outcome.next.inj h).symm
  · rw [exec_call_full s nnn hd] at h
    cases h

/-- The return from a call: the stack before the call, and the address after it (R209). -/
theorem exec_ret_after_call (s : State) (nnn : Addr) :
    exec .ret ((s.push (s.pc.toNat + 2)).setPc nnn.toNat) = .next (s.setPc (s.pc.toNat + 2)) := by
  rw [exec_ret_cons _ (top := wrap12 (s.pc.toNat + 2)) (rest := s.stack) rfl]
  simp only [State.setPc, wrap12_wrap12, State.push]

/-- A faulting step of a session reports and marks the fault, and leaves the machine (R452, R454). -/
theorem step_of_fault {σ : Session} {ks : Keys} {r : Byte} {f : Fault} (h : coreStep ks r σ.machine = .fault f) :
    σ.step ks r = .session { σ with last := some (.fault f), faultMark := some (σ.faultMark.getD f) } := by
  simp [Session.step, h]

/-- Settles O11: the two cases of the stack, a return straight after a call, and the session of a step that underflows. -/
theorem retPopsOrUnderflows : Obligations.RetPopsOrUnderflows := by
  unfold Obligations.RetPopsOrUnderflows
  refine ⟨rfl, rfl, fun s top below hs => ?_, fun s t nnn hcall => ?_, exec_ret_nil, fun σ ks r hw hop hs => ?_⟩
  · exact ⟨_, exec_ret_cons s hs, wrap12_toNat top.toNat, rfl, stackOnly_setPc s below top.toNat⟩
  · rw [exec_call_next hcall]
    exact ⟨_, exec_ret_after_call s nnn, wrap12_toNat (s.pc.toNat + 2)⟩
  · have hd : decodeWord σ.machine.fetchPc = some .ret := by rw [hop]; rfl
    have hf : coreStep ks r σ.machine = .fault (.stackUnderflow 0x00EE#16 σ.machine.pc) :=
      (cycle_of_decodeWord (s := σ.machine.latch ks r) hw hd).trans (exec_ret_nil (σ.machine.latch ks r) hs)
    exact ⟨_, step_of_fault hf, rfl, rfl⟩

/-- Settles O13: the two cases of the depth. -/
theorem callPushesOrOverflows : Obligations.CallPushesOrOverflows := by
  unfold Obligations.CallPushesOrOverflows
  intro s nnn
  constructor
  · intro hd
    exact ⟨_, exec_call_push s nnn hd, setPc_addr_toNat _ nnn, ⟨_, rfl, wrap12_toNat _⟩, stackOnly_setPc s _ _⟩
  · intro hd
    exact exec_call_full s nnn (Nat.not_lt.mpr hd)

/-- Settles O14: the return finds what the call pushed. -/
theorem callThenReturnIsSymmetric : Obligations.CallThenReturnIsSymmetric := by
  unfold Obligations.CallThenReturnIsSymmetric
  intro s nnn hd
  exact ⟨_, _, exec_call_push s nnn hd, exec_ret_after_call s nnn, rfl⟩

/-! ### Skips and the indexed jump -/

/-- Where a skip leads, for a test that decides the condition (R173). -/
theorem skipIf_pc_toNat (s : State) {c : Bool} {p : Prop} [Decidable p] (hc : c = true ↔ p) :
    (s.skipIf c).pc.toNat = skipPc s p := by
  simp only [State.skipIf, setPc_pc, wrap12_toNat, skipPc, hc]

/-- A skip moves only `pc`. -/
theorem registersOnly_skipIf (s : State) (c : Bool) : RegistersOnly s (s.skipIf c) noRegister :=
  registersOnly_setPc s _ noRegister

/-- Settles O15: each skip tests its condition and moves only `pc`. -/
theorem registerSkipsMoveOnlyPc : Obligations.RegisterSkipsMoveOnlyPc := by
  unfold Obligations.RegisterSkipsMoveOnlyPc
  intro s x y kk
  exact ⟨⟨_, rfl, skipIf_pc_toNat s beq_iff_eq, registersOnly_skipIf s _⟩,
    ⟨_, rfl, skipIf_pc_toNat s bne_iff_ne, registersOnly_skipIf s _⟩,
    ⟨_, rfl, skipIf_pc_toNat s beq_iff_eq, registersOnly_skipIf s _⟩,
    ⟨_, rfl, skipIf_pc_toNat s bne_iff_ne, registersOnly_skipIf s _⟩⟩

/-- Settles O16: the sum is wrapped, and only `pc` moves. -/
theorem jpV0AddsTheFirstRegister : Obligations.JpV0AddsTheFirstRegister := by
  unfold Obligations.JpV0AddsTheFirstRegister
  intro s nnn
  exact ⟨_, rfl, wrap12_toNat _, registersOnly_setPc s _ noRegister⟩

end Sys2Proof.Proofs.ControlFlow
end

section
/-! Proofs of the family 60_exceptions.md: which faults there are, what they record, and what the host makes of them. -/

namespace Sys2Proof.Proofs.Exceptions

open Sys2Proof.Machine Sys2Proof.Safety Sys2Proof.Laws.Ops Sys2Proof.Laws.Session
open Sys2Proof.Proofs.Execution Sys2Proof.Proofs.Cycle
open Sys2Proof.Proofs.Encoding (encode_of_decodeWord)
open Sys2Proof.Proofs.ControlFlow (step_of_fault)

variable {s : State} {i : Instr} {f : Fault}

/-! ### The faults of a step -/

/-- Settles O48: the faults of an execution are exactly the listed ones. -/
theorem faultsAreExactlyTheListed : Obligations.FaultsAreExactlyTheListed := by
  unfold Obligations.FaultsAreExactlyTheListed
  intro i s f
  exact exec_fault_iff

/-- A fault of an execution records the instruction's word and the value of `pc` (R451). -/
theorem Faults.records (h : Faults i s f) : f.opcode = encode i ∧ f.address = s.pc := by
  rcases h with ⟨-, -, rfl⟩ | ⟨nnn, -, -, rfl⟩ | ⟨x, -, -, -, rfl⟩ <;> exact ⟨rfl, rfl⟩

/-- The faults of a cycle: no wait is pending, and the word at `pc` is illegal or its instruction faults (R455). -/
theorem cycle_fault_iff :
    cycle s = .fault f ↔
      s.wait = none ∧
      ((decodeWord s.fetchPc = none ∧ f = .unknownOpcode s.fetchPc s.pc) ∨
        ∃ i, decodeWord s.fetchPc = some i ∧ Faults i s f) := by
  constructor
  · intro h
    rcases cycle_cases s with ⟨x, -, he⟩ | ⟨hw, hd, he⟩ | ⟨i, hw, hd, he⟩ <;> rw [he] at h
    · cases h
    · cases h
      exact ⟨hw, .inl ⟨hd, rfl⟩⟩
    · exact ⟨hw, .inr ⟨i, hd, exec_fault_iff.mp h⟩⟩
  · rintro ⟨hw, ⟨hd, rfl⟩ | ⟨i, hd, hf⟩⟩
    · exact cycle_of_illegal hw hd
    · exact (cycle_of_decodeWord hw hd).trans (exec_fault_iff.mpr hf)

/-- A faulting cycle records the word at `pc` and its address. -/
theorem cycle_fault_records (h : cycle s = .fault f) : f.opcode = s.fetchPc ∧ f.address = s.pc ∧ s.wait = none := by
  obtain ⟨hw, ⟨-, rfl⟩ | ⟨i, hd, hf⟩⟩ := cycle_fault_iff.mp h
  · exact ⟨rfl, rfl, hw⟩
  · obtain ⟨hop, ha⟩ := Faults.records hf
    exact ⟨hop.trans (encode_of_decodeWord hd), ha, hw⟩

/-- Settles O49: the turn before the cycle leaves memory, `pc` and the wait as they are. -/
theorem stepFaultRecordsTheWordAtPc : Obligations.StepFaultRecordsTheWordAtPc := by
  unfold Obligations.StepFaultRecordsTheWordAtPc
  intro s f h
  exact cycle_fault_records (s := s.beginTurn) h

/-- Settles O50: what decides a fault (`WAIT`, the word at `pc`, the stack, the registers, the policy) is neither input nor
timer. -/
theorem aFaultIsReproduced : Obligations.AFaultIsReproduced := by
  unfold Obligations.AFaultIsReproduced
  intro s ks ks' r r' n f h
  exact cycle_fault_iff.mpr (cycle_fault_iff (s := s.latch ks r).mp h)

/-! ### The mark of the first fault and the skip (R454, R462) -/

/-- A move that does not fault keeps the mark; a faulting step marks the session unless it is marked. -/
theorem move_faultMark {op : HostOp} {σ τ : Session} (h : σ.move op = .session τ) :
    τ.faultMark = σ.faultMark ∨
    ∃ ks r f, op = .step ks r ∧ coreStep ks r σ.machine = .fault f ∧ τ.faultMark = some (σ.faultMark.getD f) := by
  rcases move_cases h with ⟨ks, r, rfl, hs⟩ | ⟨-, rfl⟩ | ⟨-, rfl⟩ | ⟨-, hs⟩
  · rcases step_cases hs with ⟨t, -, rfl⟩ | ⟨f, hf, rfl⟩
    · exact .inl rfl
    · exact .inr ⟨ks, r, f, rfl, hf, rfl⟩
  · exact .inl rfl
  · exact .inl rfl
  · obtain ⟨f, -, -, rfl⟩ := skip_cases hs
    exact .inl rfl

/-- No move changes a mark. -/
theorem move_keeps_mark (f : Fault) (op : HostOp) (σ τ : Session) (hσ : σ.faultMark = some f) (h : σ.move op = .session τ) :
    τ.faultMark = some f := by
  rcases move_faultMark h with hm | ⟨ks, r, g, -, -, hm⟩ <;> simp [hm, hσ]

/-- Settles O51: the outcome of a faulting step, the mark along every run, and the only move that sets one. -/
theorem faultsChangeNothingAndStayMarked : Obligations.FaultsChangeNothingAndStayMarked := by
  unfold Obligations.FaultsChangeNothingAndStayMarked
  refine ⟨fun σ ks r f hf => ?_, fun ops σ τ f hσ hrun => ?_, fun op σ τ f hm hfree hmark => ?_⟩
  · exact ⟨_, step_of_fault hf, rfl, rfl, rfl⟩
  · exact run_keeps (move_keeps_mark f) ops hσ hrun
  · have hnone : σ.faultMark = none := hfree
    rcases move_faultMark hm with hkept | ⟨ks, r, g, hop, hg, hset⟩
    · simp [hkept, hnone] at hmark
    · have hgf : g = f := by simpa [hset, hnone] using hmark
      exact ⟨ks, r, hop, hgf ▸ hg⟩

/-- A skip after a fault the host may skip. -/
theorem skip_of_skippable {σ : Session} (hl : σ.last = some (.fault f)) (hf : f.skippable = true) :
    σ.skip = .session { σ with machine := σ.machine.advance } := by
  simp [Session.skip, hl, hf]

/-- A skip is not defined where the most recent step did not fault in a way the host may skip. -/
theorem skip_not_defined {σ : Session} (h : ∀ f, σ.last = some (.fault f) → f.skippable = false) : σ.skip = .notDefined := by
  unfold Session.skip
  split
  · rw [h _ ‹_›]
    rfl
  · rfl

/-- Settles O52: the two faults the host may skip, and every other outcome of the most recent step. -/
theorem skipIsDefinedOnlyAfterASkippableFault : Obligations.SkipIsDefinedOnlyAfterASkippableFault := by
  unfold Obligations.SkipIsDefinedOnlyAfterASkippableFault
  intro σ op a
  constructor
  · rintro (hl | hl) <;> exact skip_of_skippable hl rfl
  · intro hl
    refine skip_not_defined fun f hf => ?_
    rcases hl with hl | hl | hl | hl | hl <;> rw [hl] at hf <;> cases hf <;> rfl

end Sys2Proof.Proofs.Exceptions
end

section
/-! Proofs of the family 70_reset_and_hazards.md: construction, reset and the end of a run. -/

namespace Sys2Proof.Proofs.Reset

open Sys2Proof.Machine Sys2Proof.Safety Sys2Proof.Laws.State Sys2Proof.Laws.Ops
open Sys2Proof.Proofs.Cycle Sys2Proof.Proofs.Encoding
open Sys2Proof.Proofs.Invariant (construct_ok)
open Sys2Proof.Proofs.ControlFlow (exec_jp decodeWord_jp)

variable {rom : List Byte} {c : Config} {s : State}

/-! ### The bytes of a constructed machine -/

/-- A byte of the machine before the ROM is loaded. -/
theorem blank_readByte (c : Config) {a : Nat} (ha : a < 4096) : (State.blank c).readByte a = constructedByte c a := by
  have hmod : a % 4096 = a := Nat.mod_eq_of_lt ha
  simp only [State.readByte, hmod]
  rfl

/-- A byte of the ROM. -/
theorem construct_readByte_rom (h : construct rom c = .ok s) {k : Nat} (hk : k < rom.length) :
    s.readByte (0x200 + k) = rom[k] := by
  obtain ⟨hrom, -, rfl⟩ := construct_ok h
  rw [writeBytes_readByte _ _ _ _ (by omega) (by omega), dif_pos (by omega)]
  simp

/-- A byte outside the ROM is that of the machine before it is loaded. -/
theorem construct_readByte_other (h : construct rom c = .ok s) {a : Nat} (ha : a < 4096)
    (hout : ¬ (0x200 ≤ a ∧ a < 0x200 + rom.length)) : s.readByte a = constructedByte c a := by
  obtain ⟨hrom, -, rfl⟩ := construct_ok h
  rw [writeBytes_readByte _ _ _ _ (by omega) ha, dif_neg hout, blank_readByte c ha]

/-- A byte of the font. -/
theorem constructedByte_font (c : Config) {k : Nat} (hk : k < 80) : constructedByte c (c.fontBase.toNat + k) = c.fontData[k] := by
  rw [constructedByte, dif_pos (by omega)]
  simp

/-- A byte outside the font. -/
theorem constructedByte_other {a : Nat} (h : ¬ (c.fontBase.toNat ≤ a ∧ a < c.fontBase.toNat + 80)) :
    constructedByte c a = 0x00#8 := dif_neg h

/-- The first word after a construction with an empty ROM is 0x0000: the font lies below it (R7). -/
theorem construct_nil_fetchPc (h : construct [] c = .ok s) : s.fetchPc = 0x0000#16 := by
  obtain ⟨-, hfont, hs⟩ := construct_ok h
  have hbyte : ∀ a, 0x200 ≤ a → a < 4096 → s.readByte a = 0x00#8 := fun a hlo hhi => by
    rw [construct_readByte_other h hhi (by simp), constructedByte_other (by omega)]
  have hpc : s.pc.toNat = 0x200 := by rw [hs]; rfl
  rw [State.fetchPc, hpc, State.fetch, hbyte _ (by decide) (by decide), hbyte _ (by decide) (by decide)]
  rfl

/-! ### Construction -/

/-- A ROM past the top of memory is refused (R502). -/
theorem construct_too_large (h : 4096 - 0x200 < rom.length) : construct rom c = .error .romTooLarge := by
  have hrom : romFits rom = false := by simpa [romFits] using h
  exact if_pos hrom

/-- A font that reaches into the ROM is refused (log 14). -/
theorem construct_misplaced (hlen : rom.length ≤ 3584) (h : 0x200 < c.fontBase.toNat + 80) :
    construct rom c = .error .fontMisplaced := by
  have hrom : romFits rom = true := by simpa [romFits] using hlen
  have hfont : c.wellFormed = false := decide_eq_false (Nat.not_le.mpr h)
  simp [construct, hrom, hfont]

/-- Any other ROM and font are accepted (R501). -/
theorem construct_accepts (hlen : rom.length ≤ 3584) (h : c.fontBase.toNat + 80 ≤ 0x200) :
    construct rom c = .ok ((State.blank c).writeBytes 0x200 rom) := by
  have hrom : romFits rom = true := by simpa [romFits] using hlen
  have hfont : c.wellFormed = true := by simpa [Config.wellFormed] using h
  simp [construct, hrom, hfont]

/-- Settles O53: the three results of a construction, and the illegal word at the start of an empty ROM. -/
theorem romIsRefusedOrLoaded : Obligations.RomIsRefusedOrLoaded := by
  unfold Obligations.RomIsRefusedOrLoaded
  refine ⟨fun rom c => construct_too_large, fun rom c hlen hfont => ?_, fun c s ks r h => ?_, fun rom c => construct_misplaced⟩
  · have h := construct_accepts hlen hfont
    exact ⟨_, h, fun k hk => construct_readByte_rom h hk⟩
  · have hop := construct_nil_fetchPc h
    obtain ⟨-, -, rfl⟩ := construct_ok h
    have hd : decodeWord ((State.blank c).writeBytes 0x200 []).fetchPc = none := by rw [hop]; rfl
    refine (cycle_of_illegal (s := ((State.blank c).writeBytes 0x200 []).latch ks r) rfl hd).trans ?_
    exact congrArg (fun op => Host.Outcome.fault (Fault.unknownOpcode op 0x0200#16)) hop

/-- Settles O54: the bytes of ROM, font and the rest, and the blank machine in everything but memory. -/
theorem constructionLeavesTheResetValues : Obligations.ConstructionLeavesTheResetValues := by
  unfold Obligations.ConstructionLeavesTheResetValues
  intro rom c s h
  have hrom : ∀ k (hk : k < rom.length), s.readByte (0x200 + k) = rom[k] := fun k hk => construct_readByte_rom h hk
  have hother : ∀ a < 4096, ¬ (0x200 ≤ a ∧ a < 0x200 + rom.length) → s.readByte a = constructedByte c a :=
    fun a ha hout => construct_readByte_other h ha hout
  obtain ⟨-, hfont, rfl⟩ := construct_ok h
  refine ⟨fun k hk => ?_, hrom, fun a ha hout hout' => ?_, ?_⟩
  · rw [hother _ (by omega) (by omega), constructedByte_font c hk]
  · rw [hother a ha hout', constructedByte_other hout]
  · rw [writeBytes_eq]
    have hreg : ∀ x, (State.blank c).reg x = 0x00#8 := fun x => Vector.getElem_replicate _
    exact ⟨hreg, rfl, rfl, rfl, rfl, rfl, Laws.Surface.pix_cleared, rfl, rfl, rfl⟩

/-- Settles O55: both sides are the blank machine of the default configuration. -/
theorem resetIsDefaultConstruction : Obligations.ResetIsDefaultConstruction := by
  unfold Obligations.ResetIsDefaultConstruction
  exact ⟨rfl, rfl, rfl, rfl, rfl⟩

/-! ### The end of a run (R513) -/

/-- The jump to its own address is the word of a stopped program. -/
theorem selfJump_eq {a : Word} (ha : a.toNat < 0x1000) : 0x1000#16 ||| a = encodeNNN 0x1#4 (a.setWidth 12) := by
  have happend : (encodeNNN 0x1#4 (a.setWidth 12)).toNat = (0x1#4).toNat <<< 12 ||| (a.setWidth 12).toNat :=
    BitVec.toNat_append _ _
  apply BitVec.eq_of_toNat_eq
  rw [happend, BitVec.toNat_or, BitVec.toNat_setWidth, Nat.mod_eq_of_lt ha]
  rfl

/-- Setting `pc` to the value it holds changes nothing. -/
theorem setPc_self (hpc : s.pc.toNat < 0x1000) : s.setPc s.pc.toNat = s := by
  have h : wrap12 s.pc.toNat = s.pc := by
    apply BitVec.eq_of_toNat_eq
    rw [wrap12_toNat, Nat.mod_eq_of_lt hpc]
  rw [State.setPc, h]

/-- Settles O56: the word at `pc` is a jump to `pc`, and the inputs are no part of having stopped. -/
theorem aStoppedProgramLoops : Obligations.AStoppedProgramLoops := by
  unfold Obligations.AStoppedProgramLoops
  intro s ks r hstop hpc
  obtain ⟨hw, hop⟩ := hstop
  refine ⟨?_, hw, hop⟩
  have hd : decodeWord (s.latch ks r).fetchPc = some (.jp (s.pc.setWidth 12)) := by
    have hop' : (s.latch ks r).fetchPc = encodeNNN 0x1#4 (s.pc.setWidth 12) := hop.trans (selfJump_eq hpc)
    rw [hop', decodeWord_jp]
  have htarget : (s.pc.setWidth 12).toNat = (s.latch ks r).pc.toNat := by
    rw [BitVec.toNat_setWidth, latch_pc]
    exact Nat.mod_eq_of_lt hpc
  rw [coreStep, cycle_of_decodeWord (s := s.latch ks r) hw hd, exec_jp, htarget, setPc_self (s := s.latch ks r) hpc]

end Sys2Proof.Proofs.Reset
end

section
/-! Proofs of the family 41_alu.md: arithmetic and logic on registers (R251 to R261). -/

namespace Sys2Proof.Proofs.Alu

open Sys2Proof.Machine Sys2Proof.Safety Sys2Proof.Laws.State

variable (s : State) (x : RegIx)

/-! ### Writing one register -/

/-- A register write followed by the default update of `pc`: where `pc` is then, and the frame. -/
theorem setReg_advance_frame (b : Byte) :
    (s.setReg x b).advance.pc.toNat = nextPc s ∧ RegistersOnly s (s.setReg x b).advance (· = x) :=
  ⟨advance_pc_toNat (s.setReg x b), registersOnly_advance (registersOnly_setReg s x b)⟩

/-- Settles O18: the destination holds the wrapped sum, and no other register is written. -/
theorem addConstantRecordsNoCarry : Obligations.AddConstantRecordsNoCarry := by
  unfold Obligations.AddConstantRecordsNoCarry
  intro s x kk
  refine ⟨_, rfl, ?_, setReg_advance_frame s x _⟩
  rw [setReg_advance_reg_same, wrap8_toNat]

/-- Adding a constant and then its negative gives a byte back. -/
theorem wrap8_add_neg (a kk : Byte) :
    wrap8 ((wrap8 (a.toNat + kk.toNat)).toNat + (BitVec.ofNat 8 (256 - kk.toNat)).toNat) = a := by
  have ha : a.toNat < 256 := a.isLt
  have hk : kk.toNat < 256 := kk.isLt
  apply BitVec.eq_of_toNat_eq
  rw [wrap8_toNat, wrap8_toNat, BitVec.toNat_ofNat]
  omega

/-- Two default updates of `pc` in turn. -/
theorem advance_advance : s.advance.advance = { s with pc := BitVec.ofNat 16 ((s.pc.toNat + 4) % 4096) } := by
  have h : wrap12 ((wrap12 (s.pc.toNat + 2)).toNat + 2) = BitVec.ofNat 16 ((s.pc.toNat + 4) % 4096) := by
    apply BitVec.eq_of_toNat_eq
    rw [wrap12_toNat, wrap12_toNat, BitVec.toNat_ofNat]
    omega
  simp only [State.advance, State.setPc, h]

/-- Settles O19: the second addition writes back what the register held, and nothing but `pc` is left changed. -/
theorem addConstantRoundTrips : Obligations.AddConstantRoundTrips := by
  unfold Obligations.AddConstantRoundTrips
  intro s x kk
  have hback : ((s.setReg x (wrap8 ((s.reg x).toNat + kk.toNat))).setReg x (s.reg x)) = s := by
    rw [setReg_setReg, setReg_self]
  refine ⟨_, _, rfl, rfl, ?_⟩
  rw [setReg_advance_reg_same, wrap8_add_neg]
  exact (congrArg (fun u : State => u.advance.advance) hback).trans (advance_advance s)

/-- Settles O20: each writes its result to the destination alone. -/
theorem assignAndLogicWriteOnlyTheDestination : Obligations.AssignAndLogicWriteOnlyTheDestination := by
  unfold Obligations.AssignAndLogicWriteOnlyTheDestination
  intro s x y
  exact ⟨⟨_, rfl, setReg_advance_reg_same s x _, setReg_advance_frame s x _⟩,
    ⟨_, rfl, setReg_advance_reg_same s x _, setReg_advance_frame s x _⟩,
    ⟨_, rfl, setReg_advance_reg_same s x _, setReg_advance_frame s x _⟩,
    ⟨_, rfl, setReg_advance_reg_same s x _, setReg_advance_frame s x _⟩⟩

/-- Settles O24: the draw under the mask is written, and it is 0 under the mask 0. -/
theorem randomIsTheDrawUnderTheMask : Obligations.RandomIsTheDrawUnderTheMask := by
  unfold Obligations.RandomIsTheDrawUnderTheMask
  intro s x kk
  have hreg : (s.setReg x (s.rnd &&& kk)).advance.reg x = s.rnd &&& kk := setReg_advance_reg_same s x _
  refine ⟨_, rfl, hreg, fun hk => ?_, setReg_advance_frame s x _⟩
  rw [hreg, hk, BitVec.and_zero]

/-! ### Writing a result and its flag (R174) -/

/-- The flag as the statements write it. -/
theorem flagByte_eq {c : Bool} {p : Prop} [Decidable p] (hc : c = true ↔ p) : flagByte c = flagValue p := by
  simp only [flagByte, flagValue, hc]

/-- The flag as a number. -/
theorem flagByte_toNat (c : Bool) : (flagByte c).toNat = c.toNat := by
  cases c <;> rfl

/-- The flag is written last, so it is what `VF` holds, the destination being `VF` or not (D9). -/
theorem setRegFlag_advance_vf (r : Byte) (c : Bool) : (s.setRegFlag x r c).advance.reg vf = flagByte c :=
  setReg_advance_reg_same (s.setReg x r) vf (flagByte c)

/-- A destination that is not `VF` holds the result. -/
theorem setRegFlag_advance_reg (r : Byte) (c : Bool) (hx : x ≠ vf) : (s.setRegFlag x r c).advance.reg x = r := by
  rw [advance_reg, State.setRegFlag, setReg_reg, if_neg hx, setReg_reg, if_pos rfl]

/-- A larger set of destinations is a weaker frame. -/
theorem registersOnly_mono {t : State} {dest dest' : RegIx → Prop} (h : RegistersOnly s t dest)
    (hsub : ∀ r, dest r → dest' r) : RegistersOnly s t dest' :=
  ⟨fun r hr => h.regs r fun hd => hr (hsub r hd), h.index, h.bytes, h.rest⟩

/-- A result with its flag, followed by the default update of `pc`: where `pc` is then, and the frame. -/
theorem setRegFlag_advance_frame (r : Byte) (c : Bool) :
    (s.setRegFlag x r c).advance.pc.toNat = nextPc s ∧
    RegistersOnly s (s.setRegFlag x r c).advance (fun q => q = x ∨ q = vf) := by
  refine ⟨advance_pc_toNat (s.setRegFlag x r c), registersOnly_advance (registersOnly_trans (t := s.setReg x r) ?_ ?_)⟩
  · exact registersOnly_mono s (registersOnly_setReg s x r) fun _ => .inl
  · exact registersOnly_mono _ (registersOnly_setReg (s.setReg x r) vf (flagByte c)) fun _ => .inr

/-- Settles O21: the wrapped sum, and the carry written after it. -/
theorem addRegistersSetsCarry : Obligations.AddRegistersSetsCarry := by
  unfold Obligations.AddRegistersSetsCarry
  intro s x y
  refine ⟨_, rfl, fun hx => ?_, ?_, setRegFlag_advance_frame s x _ _⟩
  · rw [setRegFlag_advance_reg s x _ _ hx, wrap8_toNat]
  · rw [setRegFlag_advance_vf]
    exact flagByte_eq decide_eq_true_iff

/-- The wrapped difference is the integer difference modulo 256. -/
theorem wrap8_sub (a b : Byte) : ((wrap8 (256 + a.toNat - b.toNat)).toNat : Int) = (a.toNat - b.toNat : Int) % 256 := by
  have hb : b.toNat < 256 := b.isLt
  rw [wrap8_toNat]
  omega

/-- Settles O22: the wrapped difference, and NOT borrow written after it. -/
theorem subtractionsSetNotBorrow : Obligations.SubtractionsSetNotBorrow := by
  unfold Obligations.SubtractionsSetNotBorrow
  intro s x y
  refine ⟨⟨_, rfl, fun hx => ?_, ?_, setRegFlag_advance_frame s x _ _⟩,
    ⟨_, rfl, fun hx => ?_, ?_, setRegFlag_advance_frame s x _ _⟩⟩
  · rw [setRegFlag_advance_reg s x _ _ hx, wrap8_sub]
  · rw [setRegFlag_advance_vf]
    exact flagByte_eq decide_eq_true_iff
  · rw [setRegFlag_advance_reg s x _ _ hx, wrap8_sub]
  · rw [setRegFlag_advance_vf]
    exact flagByte_eq decide_eq_true_iff

/-- The byte a shift reads, by the configuration (R258, R260). -/
theorem shiftOperand_eq (y : RegIx) :
    s.shiftOperand x y = if s.cfg.shiftSource = .vx then s.reg x else s.reg y := by
  unfold State.shiftOperand
  cases s.cfg.shiftSource <;> rfl

/-- The bit a right shift moves out, as a number. -/
theorem shiftedOutRight_toNat (a : Byte) : (shiftedOutRight a).toNat = a.toNat % 2 := by
  rw [shiftedOutRight, BitVec.getLsbD, Nat.testBit_zero]
  rcases Nat.mod_two_eq_zero_or_one a.toNat with h | h <;> simp [h]

/-- The bit a left shift moves out, as a number. -/
theorem shiftedOutLeft_toNat (a : Byte) : (shiftedOutLeft a).toNat = a.toNat / 128 := by
  have ha : a.toNat < 256 := a.isLt
  have hdiv : a.toNat / 128 = 0 ∨ a.toNat / 128 = 1 := by omega
  rw [shiftedOutLeft, BitVec.getLsbD, Nat.testBit_eq_decide_div_mod_eq]
  rcases hdiv with h | h <;> simp [h]

/-- Settles O23: the shifted operand, and the bit shifted out written after it. -/
theorem shiftsByOneSetTheBitShiftedOut : Obligations.ShiftsByOneSetTheBitShiftedOut := by
  unfold Obligations.ShiftsByOneSetTheBitShiftedOut
  intro s x y src hsrc
  rw [← shiftOperand_eq] at hsrc
  subst hsrc
  refine ⟨⟨_, rfl, fun hx => ?_, ?_, setRegFlag_advance_frame s x _ _⟩,
    ⟨_, rfl, fun hx => ?_, ?_, setRegFlag_advance_frame s x _ _⟩⟩
  · rw [setRegFlag_advance_reg s x _ _ hx, BitVec.toNat_ushiftRight, Nat.shiftRight_one]
  · rw [setRegFlag_advance_vf, flagByte_toNat, shiftedOutRight_toNat]
  · rw [setRegFlag_advance_reg s x _ _ hx, wrap8_toNat]
  · rw [setRegFlag_advance_vf, flagByte_toNat, shiftedOutLeft_toNat]

end Sys2Proof.Proofs.Alu
end

section
/-! Proofs of the family 42_index_memory.md: the index register, the stores and the loads (R301 to R306). -/

namespace Sys2Proof.Proofs.IndexMemory

open Sys2Proof.Machine Sys2Proof.Safety Sys2Proof.Laws.State Sys2Proof.Laws.Memory Sys2Proof.Laws.Ops
open Sys2Proof.Proofs.Alu (advance_pc_toNat)
open Sys2Proof.Proofs.ControlFlow (registersOnly_setPc)
open Sys2Proof.Proofs.Memory (readByte_congr_mod fetch_toNat)
open Sys2Proof.Proofs.Execution (nibbleOperand_none exec_ldFVx_none exec_ldFVx_some)

variable {s t u : State} {x : RegIx}

/-! ### ADD I, Vx and LD F, Vx -/

/-- Settles O26: the wrapped sum, and the frame of a write of `I`. -/
theorem addToIndexWrapsWithoutFlag : Obligations.AddToIndexWrapsWithoutFlag := by
  unfold Obligations.AddToIndexWrapsWithoutFlag
  intro s x
  exact ⟨_, rfl, setI_advance_i_toNat s _, advance_pc_toNat (s.setI _), indexOnly_advance (indexOnly_setI s _)⟩

/-- An operand at most 0xF, or under `mask`, is its low nibble. -/
theorem nibbleOperand_some (s : State) {b : Byte} (h : b.toNat ≤ 0xF ∨ s.cfg.rangePolicy = .mask) :
    s.nibbleOperand b = some (b.extractLsb' 0 4) := by
  rw [nibbleOperand_eq, if_neg]
  rintro ⟨hb, hp⟩
  rcases h with h | h
  · omega
  · rw [hp] at h
    cases h

/-- Settles O27: the two cases of the operand. -/
theorem loadFontPointsAtTheGlyph : Obligations.LoadFontPointsAtTheGlyph := by
  unfold Obligations.LoadFontPointsAtTheGlyph
  intro s x
  constructor
  · intro h
    refine ⟨_, exec_ldFVx_some s x (nibbleOperand_some s h), ?_, advance_pc_toNat (s.setI _),
      indexOnly_advance (indexOnly_setI s _)⟩
    rw [setI_advance_i_toNat, State.glyphAddress, lowNibble_toNat]
  · intro h
    exact exec_ldFVx_none s x ((nibbleOperand_none s).mpr h)

/-! ### The frames of a write of memory and of the block moves -/

/-- A write of memory keeps what lies outside registers, `I`, `pc` and memory. -/
theorem restKept_setMem (s : State) (m : Machine.Memory) : RestKept s { s with mem := m } where
  stack := rfl
  timers := ⟨rfl, rfl⟩
  display _ _ := rfl
  waiting := ⟨rfl, rfl⟩
  inputs := ⟨rfl, rfl, rfl, rfl, rfl⟩

/-- A write of the registers keeps what lies outside registers, `I`, `pc` and memory. -/
theorem restKept_setV (s : State) (v : Vector Byte 16) : RestKept s { s with v := v } where
  stack := rfl
  timers := ⟨rfl, rfl⟩
  display _ _ := rfl
  waiting := ⟨rfl, rfl⟩
  inputs := ⟨rfl, rfl, rfl, rfl, rfl⟩

/-- The end of a block move, `I` moved or not and then `pc`, keeps what lies outside registers, `I`, `pc` and memory. -/
theorem restKept_bumpI_advance (s : State) (x : RegIx) : RestKept s (s.bumpI x).advance where
  stack := rfl
  timers := ⟨rfl, rfl⟩
  display _ _ := rfl
  waiting := ⟨rfl, rfl⟩
  inputs := ⟨rfl, rfl, rfl, rfl, rfl⟩

/-- `I` after a block move under `unchanged`. -/
theorem bumpI_advance_i_unchanged (h : s.cfg.loadStoreIncrement = .unchanged) : (s.bumpI x).advance.i = s.i := by
  show (s.bumpI x).i = s.i
  rw [bumpI_i, h]
  rfl

/-- `I` after a block move under `xPlusOne`. -/
theorem bumpI_advance_i_xPlusOne (h : s.cfg.loadStoreIncrement = .xPlusOne) :
    (s.bumpI x).advance.i.toNat = (s.i.toNat + x.toNat + 1) % 4096 := by
  show (s.bumpI x).i.toNat = _
  rw [bumpI_i, if_pos h, wrap12_toNat]

/-- Two bytes of a block of at most the whole memory lie at different addresses. -/
theorem effective_mod_ne (s : State) {j k : Nat} (hj : j < 4096) (hk : k < 4096) (h : j ≠ k) :
    s.effective j % 4096 ≠ s.effective k % 4096 := by
  unfold State.effective
  omega

/-! ### LD B, Vx -/

/-- The digits of a byte as numbers. -/
theorem bcdDigits_toNat (b : Byte) :
    (bcdDigits b).1.toNat = b.toNat / 100 ∧ (bcdDigits b).2.1.toNat = b.toNat / 10 % 10 ∧
    (bcdDigits b).2.2.toNat = b.toNat % 10 := by
  have hb : b.toNat < 256 := b.isLt
  refine ⟨?_, ?_, ?_⟩ <;> rw [bcdDigits, BitVec.toNat_ofNat] <;> omega

/-- The bytes of memory after LD B, Vx: the three digits, and every other byte as before. -/
theorem decimal_readByte (h : exec (.ldBVx x) s = .next t) :
    (t.readByte (s.effective 0)).toNat = (s.reg x).toNat / 100 ∧
    (t.readByte (s.effective 1)).toNat = (s.reg x).toNat / 10 % 10 ∧
    (t.readByte (s.effective 2)).toNat = (s.reg x).toNat % 10 ∧
    ∀ a, (∀ k < 3, a % 4096 ≠ s.effective k % 4096) → t.readByte a = s.readByte a := by
  obtain rfl := Host.Outcome.next.inj h
  obtain ⟨h0, h1, h2⟩ := bcdDigits_toNat (s.reg x)
  have h01 := effective_mod_ne s (j := 0) (k := 1) (by omega) (by omega) (by omega)
  have h02 := effective_mod_ne s (j := 0) (k := 2) (by omega) (by omega) (by omega)
  have h12 := effective_mod_ne s (j := 1) (k := 2) (by omega) (by omega) (by omega)
  refine ⟨?_, ?_, ?_, fun a ha => ?_⟩ <;>
    simp only [State.advance, setPc_readByte, readByte_writeByte]
  · rw [if_neg h02, if_neg h01, if_pos trivial, h0]
  · rw [if_neg h12, if_pos trivial, h1]
  · rw [if_pos trivial, h2]
  · rw [if_neg (ha 2 (by omega)), if_neg (ha 1 (by omega)), if_neg (ha 0 (by omega))]

/-- Settles O28: the bytes, and the frame of three writes of memory. -/
theorem storeDecimalWritesThreeDigits : Obligations.StoreDecimalWritesThreeDigits := by
  unfold Obligations.StoreDecimalWritesThreeDigits
  intro s x
  obtain ⟨h0, h1, h2, hother⟩ := decimal_readByte (s := s) (x := x) rfl
  exact ⟨_, rfl, h0, h1, h2, hother, fun _ _ => rfl, rfl, wrap12_toNat _,
    restKept_trans (restKept_setMem s _) (registersOnly_setPc _ _ noRegister).rest⟩

/-! ### LD [I], Vx and LD Vx, [I] -/

/-- The bytes of memory after LD [I], Vx: the registers up to `V[x]`, and every other byte as before. -/
theorem store_readByte (h : exec (.ldMemVx x) s = .next t) :
    (∀ k ≤ x.toNat, t.readByte (s.effective k) = s.reg (nthReg k)) ∧
    ∀ a, (∀ k ≤ x.toNat, a % 4096 ≠ s.effective k % 4096) → t.readByte a = s.readByte a := by
  obtain rfl := Host.Outcome.next.inj h
  obtain ⟨hin, hout⟩ := storeRegs_readByte s (x.toNat + 1) (by omega)
  exact ⟨fun k hk => hin k (by omega), fun a ha => hout a fun k hk => ha k (by omega)⟩

/-- Settles O29: the bytes of the block, `I` by the configuration, and the frame of a write of memory. -/
theorem storeRegistersWritesInclusiveRange : Obligations.StoreRegistersWritesInclusiveRange := by
  unfold Obligations.StoreRegistersWritesInclusiveRange
  intro s x
  obtain ⟨hin, hout⟩ := store_readByte (s := s) (x := x) rfl
  refine ⟨_, rfl, hin, hout, ?_⟩
  rw [storeRegs_eq]
  exact ⟨bumpI_advance_i_unchanged, bumpI_advance_i_xPlusOne, fun _ _ => rfl, wrap12_toNat _,
    restKept_trans (restKept_setMem s _) (restKept_bumpI_advance _ x)⟩

/-- The number of a register. -/
theorem nthReg_toNat {k : Nat} (hk : k < 16) : (nthReg k).toNat = k := by
  rw [nthReg, BitVec.toNat_ofNat]
  omega

/-- The registers after LD Vx, [I]: those up to `V[x]` from memory, and every other register as before. -/
theorem load_reg (h : exec (.ldVxMem x) s = .next t) :
    (∀ k ≤ x.toNat, t.reg (nthReg k) = s.readByte (s.effective k)) ∧ regsKept s t (fun r => r.toNat ≤ x.toNat) := by
  obtain rfl := Host.Outcome.next.inj h
  have hreg := loadRegs_reg s (x.toNat + 1) (by omega)
  constructor
  · intro k hk
    refine (hreg (nthReg k)).trans ?_
    rw [nthReg_toNat (by omega), if_pos (by omega)]
  · intro r hr
    exact (hreg r).trans (if_neg (by omega))

/-- Settles O30: the registers of the block, `I` by the configuration, and the frame of a write of registers. -/
theorem loadRegistersReadsInclusiveRange : Obligations.LoadRegistersReadsInclusiveRange := by
  unfold Obligations.LoadRegistersReadsInclusiveRange
  intro s x
  obtain ⟨hin, hout⟩ := load_reg (s := s) (x := x) rfl
  refine ⟨_, rfl, hin, ?_, ?_, hout, ?_⟩ <;> rw [loadRegs_eq]
  · exact bumpI_advance_i_unchanged
  · exact bumpI_advance_i_xPlusOne
  · exact ⟨fun _ => rfl, wrap12_toNat _, restKept_trans (restKept_setV s _) (restKept_bumpI_advance _ x)⟩

/-- Settles O31: the load reads at the addresses the store wrote. -/
theorem loadBringsBackWhatStoreSaved : Obligations.LoadBringsBackWhatStoreSaved := by
  unfold Obligations.LoadBringsBackWhatStoreSaved
  intro s t u w x hst hbytes hi hld k hk
  have haddr : u.effective k = s.effective k := by rw [State.effective, State.effective, hi]
  calc w.reg (nthReg k)
      = u.readByte (u.effective k) := (load_reg hld).1 k hk
    _ = t.readByte (s.effective k) := by rw [haddr, hbytes]
    _ = s.reg (nthReg k) := (store_readByte hst).1 k hk

/-! ### The fetch of stored bytes -/

/-- The address before a block of at most 16 bytes lies outside it. -/
theorem before_block {a k : Nat} (h : (a + 1) % 4096 = s.effective 0 % 4096) (hk : k < 16) : a % 4096 ≠ s.effective k % 4096 := by
  unfold State.effective at *
  omega

/-- A fetch as the word of its two bytes. -/
theorem fetch_of_bytes {a : Nat} {b c : Byte} (hb : t.readByte a = b) (hc : t.readByte (a + 1) = c) : t.fetch a = b ++ c := by
  rw [State.fetch, hb, hc]
  rfl

/-- Settles O32: a fetch reads two bytes, each of them stored or, next to the block, as before. -/
theorem storedBytesAreFetchedNext : Obligations.StoredBytesAreFetchedNext := by
  unfold Obligations.StoredBytesAreFetchedNext
  constructor
  · intro s t x h
    obtain ⟨hin, hout⟩ := store_readByte h
    refine ⟨fun a ha => ?_, fun k hk => ?_, ?_⟩
    · have hbefore : t.readByte a = s.readByte a := hout a fun k hk => before_block ha (by omega)
      have hfirst : t.readByte (a + 1) = s.reg 0x0#4 := (readByte_congr_mod t ha).trans (hin 0 (Nat.zero_le _))
      exact fetch_of_bytes hbefore hfirst
    · exact fetch_of_bytes (hin k (by omega)) (hin (k + 1) (by omega))
    · have hlast : t.readByte (s.effective x.toNat) = s.reg x := by
        rw [hin x.toNat le_rfl, nthReg, BitVec.ofNat_toNat, BitVec.setWidth_eq]
      have hafter : t.readByte (s.effective (x.toNat + 1)) = s.readByte (s.effective (x.toNat + 1)) :=
        hout _ fun k hk => effective_mod_ne s (by omega) (by omega) (by omega)
      exact fetch_of_bytes hlast hafter
  · intro s t x h
    obtain ⟨h0, h1, h2, hout⟩ := decimal_readByte h
    refine ⟨fun a ha => ?_, ?_, ?_, ?_⟩ <;> rw [fetch_toNat]
    · rw [hout a fun k hk => before_block ha (by omega), readByte_congr_mod t ha, h0]
    · rw [h0, show s.effective 0 + 1 = s.effective 1 from rfl, h1]
    · rw [h1, show s.effective 1 + 1 = s.effective 2 from rfl, h2]
    · rw [h2, show s.effective 2 + 1 = s.effective 3 from rfl,
        hout _ fun k hk => effective_mod_ne s (by omega) (by omega) (by omega)]

end Sys2Proof.Proofs.IndexMemory
end

section
/-! Proofs of the family 43_display.md: drawing and the snapshot (R352 to R362). -/

namespace Sys2Proof.Proofs.Display

open Sys2Proof.Machine Sys2Proof.Safety Sys2Proof.Laws.State Sys2Proof.Laws.Ops Sys2Proof.Laws.Surface
open Sys2Proof.Proofs.Alu (advance_pc_toNat advance_reg)

variable {s t u w : State} {x y : RegIx} {n : Nibble}

/-! ### DRW -/

/-- The bits of the rows read at `I` are the bits of the sprite. -/
theorem spriteBitAt_readBytes (s : State) (x0 y0 n px py : Nat) :
    spriteBitAt (s.readBytes n) x0 y0 px py ↔ spriteCovers s x0 y0 n (px % 64) (py % 32) := by
  constructor
  · rintro ⟨r, hr, c, hc, hx, hy, hbit⟩
    rw [readBytes_getElem] at hbit
    exact ⟨r, by simpa using hr, c, hc, hx, hy, hbit⟩
  · rintro ⟨r, hr, c, hc, hx, hy, hbit⟩
    refine ⟨r, by simpa using hr, c, hc, hx, hy, ?_⟩
    rw [readBytes_getElem]
    exact hbit

/-- A pixel of the display covered by the sprite, whatever the coordinates, is one within the display. -/
theorem exists_pixel_iff (d : Machine.Display) (p : Nat → Nat → Prop) :
    (∃ px py, p (px % 64) (py % 32) ∧ Display.pix d px py = true) ↔
      ∃ px < 64, ∃ py < 32, Display.pix d px py = true ∧ p px py := by
  constructor
  · rintro ⟨px, py, hp, hset⟩
    refine ⟨px % 64, Nat.mod_lt _ (by omega), py % 32, Nat.mod_lt _ (by omega), ?_, hp⟩
    rw [← hset]
    exact pix_congr d (Nat.mod_mod px 64) (Nat.mod_mod py 32)
  · rintro ⟨px, hpx, py, hpy, hset, hp⟩
    refine ⟨px, py, ?_, hset⟩
    rwa [Nat.mod_eq_of_lt hpx, Nat.mod_eq_of_lt hpy]

/-- The flag is 1 exactly for a condition that holds, and else 0. -/
theorem flagByte_eq_one (c : Bool) : flagByte c = 0x01#8 ↔ c = true := by
  cases c <;> decide

theorem flagByte_cases (c : Bool) : flagByte c = 0x01#8 ∨ flagByte c = 0x00#8 := by
  cases c
  · exact .inr rfl
  · exact .inl rfl

/-- What DRW does, said through the blit and the updates of display, flag and `pc` (R360). -/
theorem exec_drw (s : State) (x y : RegIx) (n : Nibble) :
    exec (.drw x y n) s =
      .next ((s.setDisp (blit s.disp (s.reg x).toNat (s.reg y).toNat (s.readBytes n.toNat)).disp).setReg vf
        (flagByte (blit s.disp (s.reg x).toNat (s.reg y).toNat (s.readBytes n.toNat)).collision)).advance := rfl

/-- The blit of DRW: at most 15 rows, so that no pixel is covered twice. -/
theorem drw_draws (s : State) (x y : RegIx) (n : Nibble) :
    Draws { disp := s.disp, collision := false } (blit s.disp (s.reg x).toNat (s.reg y).toNat (s.readBytes n.toNat))
      (fun px py => spriteCovers s (s.reg x).toNat (s.reg y).toNat n.toNat (px % 64) (py % 32)) := by
  have hrows : (s.readBytes n.toNat).length ≤ 32 := by
    rw [readBytes_length]
    have hn : n.toNat < 16 := n.isLt
    omega
  exact (blit_draws s.disp _ _ _ hrows).congr (spriteBitAt_readBytes s _ _ _)

/-- The pixels after DRW: exactly the covered ones have changed. -/
theorem drw_pix (h : exec (.drw x y n) s = .next t) (px py : Nat) :
    Display.pix t.disp px py ≠ Display.pix s.disp px py ↔
      spriteCovers s (s.reg x).toNat (s.reg y).toNat n.toNat (px % 64) (py % 32) := by
  obtain rfl := Host.Outcome.next.inj ((exec_drw s x y n).symm.trans h)
  exact (drw_draws s x y n).pix px py

/-- The flag after DRW: 1 exactly when a covered pixel was set, else 0. -/
theorem drw_flag (h : exec (.drw x y n) s = .next t) :
    (t.reg vf = 0x01#8 ∨ t.reg vf = 0x00#8) ∧
    (t.reg vf = 0x01#8 ↔
      ∃ px < 64, ∃ py < 32, Display.pix s.disp px py = true ∧
        spriteCovers s (s.reg x).toNat (s.reg y).toNat n.toNat px py) := by
  obtain rfl := Host.Outcome.next.inj ((exec_drw s x y n).symm.trans h)
  rw [advance_reg, setReg_reg, if_pos rfl]
  refine ⟨flagByte_cases _, ?_⟩
  rw [flagByte_eq_one, (drw_draws s x y n).collision, ← exists_pixel_iff]
  simp

/-- Settles O34: pixels and flag by the blit, and the frame of a write of the display, of `VF` and of `pc`. -/
theorem drawXorsTheSpriteAndReportsCollision : Obligations.DrawXorsTheSpriteAndReportsCollision := by
  unfold Obligations.DrawXorsTheSpriteAndReportsCollision
  intro s x y n
  obtain ⟨hcases, hflag⟩ := drw_flag (exec_drw s x y n)
  refine ⟨_, exec_drw s x y n, fun px hpx py hpy => ?_, hcases, hflag, advance_pc_toNat _, fun r hr => ?_, rfl, fun _ => rfl,
    rfl, ⟨rfl, rfl⟩, ⟨rfl, rfl⟩, ⟨rfl, rfl, rfl, rfl, rfl⟩⟩
  · rw [drw_pix (exec_drw s x y n), Nat.mod_eq_of_lt hpx, Nat.mod_eq_of_lt hpy]
  · rw [advance_reg, setReg_reg, if_neg hr, setDisp_reg]

/-- The sprite depends on memory and `I` alone. -/
theorem spriteCovers_congr (hbytes : sameBytes s u) (hi : u.i = s.i) (x0 y0 n px py : Nat) :
    spriteCovers u x0 y0 n px py ↔ spriteCovers s x0 y0 n px py := by
  simp only [spriteCovers, State.effective, hi, hbytes _]

/-- Settles O35: both draws cover the same pixels, so the second toggles what the first did, and a covered pixel that is set
after the first is one that the first turned on. -/
theorem drawingTwiceRestoresTheDisplay : Obligations.DrawingTwiceRestoresTheDisplay := by
  unfold Obligations.DrawingTwiceRestoresTheDisplay
  intro s t u w x y n hfirst hdisp hx hy hi hbytes hsecond
  have hsame : ∀ px py, spriteCovers u (u.reg x).toNat (u.reg y).toNat n.toNat (px % 64) (py % 32) ↔
      Display.pix t.disp px py ≠ Display.pix s.disp px py := fun px py => by
    rw [hx, hy, spriteCovers_congr hbytes hi, drw_pix hfirst]
  constructor
  · intro px py
    have hpix := drw_pix hsecond px py
    rw [hsame, hdisp] at hpix
    cases hs : Display.pix s.disp px py <;> cases ht : Display.pix t.disp px py <;> simpa [hs, ht] using hpix
  · have hon : ∀ px < 64, ∀ py < 32,
        (Display.pix u.disp px py = true ∧ spriteCovers u (u.reg x).toNat (u.reg y).toNat n.toNat px py ↔
          Display.pix s.disp px py = false ∧ Display.pix t.disp px py = true) := fun px hpx py hpy => by
      have hcov := hsame px py
      rw [Nat.mod_eq_of_lt hpx, Nat.mod_eq_of_lt hpy] at hcov
      rw [hcov, hdisp]
      cases Display.pix s.disp px py <;> cases Display.pix t.disp px py <;> simp
    rw [(drw_flag hsecond).2]
    constructor
    · rintro ⟨px, hpx, py, hpy, h⟩
      exact ⟨px, hpx, py, hpy, (hon px hpx py hpy).mp h⟩
    · rintro ⟨px, hpx, py, hpy, h⟩
      exact ⟨px, hpx, py, hpy, (hon px hpx py hpy).mpr h⟩

/-! ### The snapshot -/

/-- The first `m` rows of the snapshot. -/
def rowsUpTo (d : Machine.Display) (m : Nat) : List Bool :=
  (List.range m).flatMap fun py => (List.range 64).map fun px => Display.pix d px py

/-- One row more is appended at the end. -/
theorem rowsUpTo_succ (d : Machine.Display) (m : Nat) :
    rowsUpTo d (m + 1) = rowsUpTo d m ++ (List.range 64).map fun px => Display.pix d px m := by
  simp [rowsUpTo, List.range_succ]

theorem rowsUpTo_length (d : Machine.Display) (m : Nat) : (rowsUpTo d m).length = 64 * m := by
  induction m with
  | zero => rfl
  | succ m ih => rw [rowsUpTo_succ, List.length_append, ih, List.length_map, List.length_range]; omega

/-- The pixel at column `px` of row `py` stands at place `64 * py + px`. -/
theorem rowsUpTo_getElem? (d : Machine.Display) {m px py : Nat} (hpx : px < 64) (hpy : py < m) :
    (rowsUpTo d m)[64 * py + px]? = some (Display.pix d px py) := by
  induction m with
  | zero => omega
  | succ m ih =>
    rw [rowsUpTo_succ]
    rcases Nat.lt_succ_iff_lt_or_eq.mp hpy with hlt | rfl
    · rw [List.getElem?_append_left (by rw [rowsUpTo_length]; omega), ih hlt]
    · rw [List.getElem?_append_right (by rw [rowsUpTo_length]; omega), rowsUpTo_length, Nat.add_sub_cancel_left]
      simp [hpx]

/-- The snapshot is all 32 rows. -/
theorem snapshot_eq (s : State) : s.snapshot = rowsUpTo s.disp 32 := rfl

/-- Settles O36: the snapshot is the 32 rows one after the other, and taking it is a move that changes nothing. -/
theorem snapshotIsRowMajor : Obligations.SnapshotIsRowMajor := by
  unfold Obligations.SnapshotIsRowMajor
  intro σ
  rw [snapshot_eq]
  exact ⟨rowsUpTo_length _ 32, fun px hpx py hpy => rowsUpTo_getElem? _ hpx hpy, rfl⟩

end Sys2Proof.Proofs.Display
end

section
/-! Proofs of the family 44_timers_input.md: the timer instructions, the key skips and the key wait (R400 to R421). -/

namespace Sys2Proof.Proofs.TimersInput

open Sys2Proof.Machine Sys2Proof.Safety Sys2Proof.Laws.State Sys2Proof.Laws.Ops Sys2Proof.Laws.Session
open Sys2Proof.Proofs.Execution
open Sys2Proof.Proofs.Alu (setReg_advance_frame setReg_advance_reg_same advance_pc_toNat)
open Sys2Proof.Proofs.ControlFlow (skipIf_pc_toNat registersOnly_skipIf)
open Sys2Proof.Proofs.IndexMemory (nibbleOperand_some)

variable {s : State} {x : RegIx} {ks : Keys} {r : Byte}

/-! ### The timers -/

/-- Settles O37: each instruction is one write followed by the default update of `pc`. -/
theorem timerInstructionsMoveOneByte : Obligations.TimerInstructionsMoveOneByte := by
  unfold Obligations.TimerInstructionsMoveOneByte
  intro s x
  refine ⟨⟨_, rfl, setReg_advance_reg_same s x s.dt, setReg_advance_frame s x s.dt⟩,
    ⟨_, rfl, rfl, rfl, advance_pc_toNat (s.setDt (s.reg x)), ?_⟩,
    ⟨_, rfl, rfl, rfl, advance_pc_toNat (s.setSt (s.reg x)), ?_⟩⟩ <;>
  exact ⟨fun _ _ => rfl, rfl, fun _ => rfl, rfl, fun _ _ => rfl, ⟨rfl, rfl⟩, ⟨rfl, rfl, rfl, rfl, rfl⟩⟩

/-- No tick leaves a timer as it is. -/
theorem timerAfter_no_tick (t : Byte) : timerAfter 0 t = t :=
  BitVec.eq_of_toNat_eq (timerAfter_toNat 0 t)

/-- One tick more on a timer. -/
theorem timerAfter_succ (n : Nat) (t : Byte) : timerAfter (n + 1) t = timerAfter 1 (timerAfter n t) := by
  apply BitVec.eq_of_toNat_eq
  rw [timerAfter_toNat, timerAfter_toNat, timerAfter_toNat, Nat.sub_sub]

/-- Settles O39: timer by timer. -/
theorem ticksAreSingleTicks : Obligations.TicksAreSingleTicks := by
  unfold Obligations.TicksAreSingleTicks
  intro s n
  constructor
  · rw [State.ticks, timerAfter_no_tick, timerAfter_no_tick]
    rfl
  · rw [State.ticks, timerAfter_succ n s.dt, timerAfter_succ n s.st]
    rfl

/-! ### The key skips -/

/-- The key a register names by its low nibble. -/
theorem key_lowNibble (s : State) (b : Byte) :
    s.key (b.extractLsb' 0 4).toFin = s.keys[b.toNat % 16]'(Nat.mod_lt _ (by omega)) := by
  have hk : ((b.extractLsb' 0 4).toFin : Nat) = b.toNat % 16 := lowNibble_toNat b
  simp only [State.key, Fin.getElem_fin, hk]

/-- Settles O41: the two cases of the operand, and the test of the key in this step's snapshot. -/
theorem keySkipsTestTheSnapshot : Obligations.KeySkipsTestTheSnapshot := by
  unfold Obligations.KeySkipsTestTheSnapshot
  intro s x
  constructor
  · intro h
    have hop := nibbleOperand_some s h
    have hkey := key_lowNibble s (s.reg x)
    refine ⟨⟨_, exec_skp_some s x hop, skipIf_pc_toNat s ?_, registersOnly_skipIf s _⟩,
      ⟨_, exec_sknp_some s x hop, skipIf_pc_toNat s ?_, registersOnly_skipIf s _⟩⟩
    · rw [hkey]
    · rw [hkey, Bool.not_eq_true']
  · intro h
    have hop := (nibbleOperand_none s).mpr h
    exact ⟨exec_skp_none s x hop, exec_sknp_none s x hop⟩

/-! ### The key wait -/

/-- The first execution tests the snapshot under `level`, and nothing under `press_edge` (R410). -/
theorem firstCandidate_level (h : s.cfg.keyTrigger = .level) (k : Fin 16) : s.firstCandidate k = s.keys[k] := by
  rw [State.firstCandidate, h]
  rfl

theorem firstCandidate_false (h : s.cfg.keyTrigger = .pressEdge ∨ ∀ k : Fin 16, s.keys[k] = false) (k : Fin 16) :
    s.firstCandidate k = false := by
  cases ht : s.cfg.keyTrigger with
  | level =>
    rw [firstCandidate_level ht]
    exact h.resolve_left (by simp [ht]) k
  | pressEdge => rw [State.firstCandidate, ht]

/-- A key as the value of a register. -/
theorem key_toNat (k : Fin 16) : ((BitVec.ofFin k : Nibble).setWidth 8).toNat = k.val := by
  have hk : k.val < 16 := k.isLt
  rw [BitVec.toNat_setWidth, BitVec.toNat_ofFin]
  omega

/-- The register that takes a key. -/
theorem takeKey_reg_toNat (s : State) (x : RegIx) (k : Fin 16) : ((s.takeKey x (BitVec.ofFin k)).reg x).toNat = k.val := by
  rw [State.takeKey, setReg_advance_reg_same, key_toNat]

/-- Settles O42: the lowest key is taken, or the instruction blocks. -/
theorem keyWaitTakesTheLowestKeyOrBlocks : Obligations.KeyWaitTakesTheLowestKeyOrBlocks := by
  unfold Obligations.KeyWaitTakesTheLowestKeyOrBlocks
  intro s x
  constructor
  · intro k hlevel hk hmin
    have hlow : lowestKey s.firstCandidate = some (BitVec.ofFin k) :=
      lowestKey_some _ k ((firstCandidate_level hlevel k).trans hk) fun j hj => (firstCandidate_level hlevel j).trans (hmin j hj)
    exact ⟨_, exec_ldVxK_some s x hlow, takeKey_reg_toNat s x k, setReg_advance_frame s x _⟩
  · intro h
    have hlow : lowestKey s.firstCandidate = none := lowestKey_none _ (firstCandidate_false h)
    refine ⟨_, exec_ldVxK_none s x hlow, rfl, rfl, fun ht => ?_, fun ht => ?_, fun _ _ => rfl, rfl, fun _ => rfl, rfl,
      ⟨rfl, rfl⟩, fun _ _ => rfl, ⟨rfl, rfl, rfl, rfl, rfl⟩⟩
    · exact (rememberKeys_waitPrev s).trans (if_pos ht)
    · exact (rememberKeys_waitPrev s).trans (if_neg (by simp [ht]))

/-- A later step tests the snapshot, and under `press_edge` also that the key was not pressed before (R412). -/
theorem waitCandidate_iff (s : State) (k : Fin 16) :
    s.waitCandidate k = true ↔ s.keys[k] = true ∧ (s.cfg.keyTrigger = .pressEdge → s.waitPrev[k] = false) := by
  rw [State.waitCandidate]
  cases s.cfg.keyTrigger <;> simp [State.key]

/-- A step while a wait is pending is a wait step (R455). -/
theorem coreStep_of_wait (h : s.wait = some x) : coreStep ks r s = waitStep x (s.latch ks r) := by
  simp [coreStep, cycle, h]

/-- A wait step with a candidate takes the lowest one and ends the wait. -/
theorem waitStep_some {k : Nibble} (h : lowestKey s.waitCandidate = some k) :
    waitStep x s = .next ((s.takeKey x k).setWait none) := by
  simp [waitStep, h]

/-- A wait step without a candidate only remembers the snapshot. -/
theorem waitStep_none (h : lowestKey s.waitCandidate = none) : waitStep x s = .next s.rememberKeys := by
  simp [waitStep, h]

/-- What remembering changes. -/
theorem rememberKeys_eq (s : State) :
    s.rememberKeys = { s with waitPrev := if s.cfg.keyTrigger = .pressEdge then s.keys else s.waitPrev } := by
  rw [← rememberKeys_waitPrev]
  rfl

/-- Settles O43: the two cases of the candidate set, on the state with the step's inputs. -/
theorem waitStepTestsOnlyTheTrigger : Obligations.WaitStepTestsOnlyTheTrigger := by
  unfold Obligations.WaitStepTestsOnlyTheTrigger
  intro s x ks r candidate hw hcand
  have hiff : ∀ k, (s.latch ks r).waitCandidate k = true ↔ candidate k := fun k =>
    (waitCandidate_iff (s.latch ks r) k).trans (hcand k).symm
  rw [coreStep_of_wait hw]
  constructor
  · intro k hk hmin
    have hlow : lowestKey (s.latch ks r).waitCandidate = some (BitVec.ofFin k) :=
      lowestKey_some _ k ((hiff k).mpr hk) fun j hj => Bool.eq_false_iff.mpr fun h => hmin j hj ((hiff j).mp h)
    obtain ⟨hpc, hframe⟩ := setReg_advance_frame (s.latch ks r) x ((BitVec.ofFin k : Nibble).setWidth 8)
    exact ⟨_, waitStep_some hlow, takeKey_reg_toNat _ x k, rfl, hpc, hframe.regs, rfl, fun _ => rfl, rfl, ⟨rfl, rfl⟩,
      fun _ _ => rfl, rfl, rfl⟩
  · intro hnone
    have hlow : lowestKey (s.latch ks r).waitCandidate = none :=
      lowestKey_none _ fun k => Bool.eq_false_iff.mpr fun h => hnone k ((hiff k).mp h)
    rw [waitStep_none hlow, rememberKeys_eq]
    rfl

/-! ### A wait with no key pressed -/

/-- `τ` is `σ` after steps that all waited for the register `x`. -/
structure StillWaiting (x : RegIx) (σ τ : Session) : Prop where
  last : τ.last = some .waiting
  mark : τ.faultMark = σ.faultMark
  wait : τ.machine.wait = some x
  pc : τ.machine.pc = σ.machine.pc
  regs : regsKept σ.machine τ.machine noRegister
  bytes : sameBytes σ.machine τ.machine

/-- One step with no key pressed goes on waiting: no key is a candidate under either trigger. -/
theorem step_noKeys {σ : Session} (h : σ.machine.wait = some x) (r : Byte) :
    ∃ τ, σ.step noKeys r = .session τ ∧ StillWaiting x σ τ := by
  have hnone : ∀ k, (σ.machine.latch noKeys r).waitCandidate k = false := fun k =>
    Bool.eq_false_iff.mpr fun hk => by simpa [noKeys] using ((waitCandidate_iff _ k).mp hk).1
  have hstep : coreStep noKeys r σ.machine = .next (σ.machine.latch noKeys r).rememberKeys := by
    rw [coreStep_of_wait h, waitStep_none (lowestKey_none _ hnone)]
  have hout : (σ.machine.latch noKeys r).rememberKeys.stepOutcome = .waiting := by
    rw [stepOutcome_waiting, rememberKeys_wait, latch_wait, h]
    rfl
  have hs : σ.step noKeys r = .session { σ with
      machine := (σ.machine.latch noKeys r).rememberKeys
      last := some (σ.machine.latch noKeys r).rememberKeys.stepOutcome } := by
    rw [Session.step, hstep]
  exact ⟨_, hs, congrArg some hout, rfl, h, rfl, fun _ _ => rfl, fun _ => rfl⟩

/-- Settles O44: one step goes on waiting, and by induction so do the others. -/
theorem waitWithoutKeysNeverEnds : Obligations.WaitWithoutKeysNeverEnds := by
  unfold Obligations.WaitWithoutKeysNeverEnds
  intro n r σ x h
  suffices hrun : ∃ τ, Session.run (List.replicate (n + 1) (.step noKeys r)) σ = .session τ ∧ StillWaiting x σ τ by
    obtain ⟨τ, hτ, hw⟩ := hrun
    exact ⟨τ, hτ, hw.last, hw.mark, hw.wait, hw.pc, hw.regs, hw.bytes⟩
  induction n generalizing σ with
  | zero =>
    obtain ⟨τ, hs, hw⟩ := step_noKeys h r
    exact ⟨τ, by simp [Session.run, Session.move, hs], hw⟩
  | succ n ih =>
    obtain ⟨τ, hs, hw⟩ := step_noKeys h r
    obtain ⟨ρ, hrun, hw'⟩ := ih τ hw.wait
    refine ⟨ρ, ?_, hw'.last, hw'.mark.trans hw.mark, hw'.wait, hw'.pc.trans hw.pc,
      fun q hq => (hw'.regs q hq).trans (hw.regs q hq), fun a => (hw'.bytes a).trans (hw.bytes a)⟩
    rw [List.replicate_succ, Session.run, Session.move, hs]
    exact hrun

end Sys2Proof.Proofs.TimersInput
end

section
/-! Proofs of the rules over all instructions: who writes which component, who writes the flag, who reads the inputs. -/

namespace Sys2Proof.Proofs.WholeMachine

open Sys2Proof.Machine Sys2Proof.Safety Sys2Proof.Laws.State Sys2Proof.Laws.Ops
open Sys2Proof.Proofs.Execution

variable {i : Instr} {s t u : State}

/-! ### The writers of each component -/

/-- Only the two stores write memory. -/
theorem Writes.sameBytes (h : Writes i s u) (hi : ∀ x, i ≠ .ldBVx x ∧ i ≠ .ldMemVx x) : sameBytes s u := by
  cases h with
  | decimal x _ _ _ e => exact absurd e (hi x).1
  | store x e => exact absurd e (hi x).2
  | load => rw [loadRegs_eq]; exact fun _ => rfl
  | _ => exact fun _ => rfl

/-- Only CLS and DRW write the display. -/
theorem Writes.disp (h : Writes i s u) (hi : i ≠ .cls ∧ ∀ x y n, i ≠ .drw x y n) : u.disp = s.disp := by
  cases h with
  | clear _ e => exact absurd e hi.1
  | draw x y n _ _ e => exact absurd e (hi.2 x y n)
  | store => rw [storeRegs_eq]; rfl
  | load => rw [loadRegs_eq]; rfl
  | _ => rfl

/-- Only CALL and RET write the stack. -/
theorem Writes.stack (h : Writes i s u) (hi : i ≠ .ret ∧ ∀ nnn, i ≠ .call nnn) : u.stack = s.stack := by
  cases h with
  | ret _ _ e => exact absurd e hi.1
  | call nnn _ e => exact absurd e (hi.2 nnn)
  | store => rw [storeRegs_eq]; rfl
  | load => rw [loadRegs_eq]; rfl
  | _ => rfl

/-- Only LD DT writes the delay timer. -/
theorem Writes.dt (h : Writes i s u) (hi : ∀ x, i ≠ .ldDtVx x) : u.dt = s.dt := by
  cases h with
  | delay x _ e => exact absurd e (hi x)
  | store => rw [storeRegs_eq]; rfl
  | load => rw [loadRegs_eq]; rfl
  | _ => rfl

/-- Only LD ST writes the sound timer. -/
theorem Writes.st (h : Writes i s u) (hi : ∀ x, i ≠ .ldStVx x) : u.st = s.st := by
  cases h with
  | sound x _ e => exact absurd e (hi x)
  | store => rw [storeRegs_eq]; rfl
  | load => rw [loadRegs_eq]; rfl
  | _ => rfl

/-- The three instructions that only move `I`, by name. -/
theorem isIndexWrite_eq_true (h : isIndexWrite i = true) :
    (∃ nnn, i = .ldI nnn) ∨ (∃ x, i = .addIVx x) ∨ ∃ x, i = .ldFVx x := by
  cases i <;> simp_all [isIndexWrite]

/-- Only the five instructions that name `I` write it. -/
theorem Writes.index (h : Writes i s u)
    (hi : ∀ nnn x, i ≠ .ldI nnn ∧ i ≠ .addIVx x ∧ i ≠ .ldFVx x ∧ i ≠ .ldMemVx x ∧ i ≠ .ldVxMem x) : u.i = s.i := by
  cases h with
  | index _ e =>
    rcases isIndexWrite_eq_true e with ⟨nnn, e⟩ | ⟨x, e⟩ | ⟨x, e⟩
    · exact absurd e (hi nnn 0).1
    · exact absurd e (hi 0 x).2.1
    · exact absurd e (hi 0 x).2.2.1
  | store x e => exact absurd e (hi 0 x).2.2.2.1
  | load x e => exact absurd e (hi 0 x).2.2.2.2
  | _ => rfl

/-- Settles O45: an instruction that does not block writes its own components and `pc`; LD Vx, K, when it blocks, only the wait
state. -/
theorem eachComponentHasOnlyItsWriters : Obligations.EachComponentHasOnlyItsWriters := by
  unfold Obligations.EachComponentHasOnlyItsWriters
  intro i s t h
  rcases exec_next_cases h with ⟨u, n, hu, rfl⟩ | ⟨x, rfl, rfl⟩
  · have hbytes := Writes.sameBytes hu
    have hdisp := Writes.disp hu
    have hstack := Writes.stack hu
    have hdt := Writes.dt hu
    have hst := Writes.st hu
    have hindex := Writes.index hu
    exact ⟨hbytes, fun hi px py => congrArg (Display.pix · px py) (hdisp hi), hstack, hdt, hst,
      fun _ => ⟨hu.waiting.wait, hu.waiting.waitPrev⟩, hindex,
      ⟨hu.inputs.keys, hu.inputs.rnd, hu.inputs.cfg, hu.inputs.turns, hu.inputs.turnsTaken⟩⟩
  · exact ⟨fun _ _ => rfl, fun _ _ _ => rfl, fun _ => rfl, fun _ => rfl, fun _ => rfl, fun hi => absurd rfl (hi x),
      fun _ => rfl, ⟨rfl, rfl, rfl, rfl, rfl⟩⟩

/-! ### The writers of the flag -/

/-- The instructions that may name `VF` as the register they write. -/
theorem destination_ne_vf
    (h : ∀ y kk, i ≠ .ldImm vf kk ∧ i ≠ .addImm vf kk ∧ i ≠ .ldReg vf y ∧ i ≠ .orReg vf y ∧ i ≠ .andReg vf y ∧
      i ≠ .xorReg vf y ∧ i ≠ .rnd vf kk ∧ i ≠ .ldVxDt vf ∧ i ≠ .ldVxK vf ∧ i ≠ .ldVxMem vf) :
    destination i ≠ some vf := by
  cases i <;> simp_all [destination]

/-- The arithmetic instructions that write the flag, by name. -/
theorem isFlagged_eq_false
    (h : ∀ x y n, i ≠ .addReg x y ∧ i ≠ .subReg x y ∧ i ≠ .shr x y ∧ i ≠ .subnReg x y ∧ i ≠ .shl x y ∧ i ≠ .drw x y n) :
    isFlagged i = false := by
  cases i <;> simp_all [isFlagged]

/-- A write of another register leaves `VF`. -/
theorem setReg_vf {x : RegIx} (hx : x ≠ vf) (b : Byte) : (s.setReg x b).reg vf = s.reg vf := by
  rw [setReg_reg, if_neg hx.symm]

/-- A block load that does not end at `VF` does not reach it. -/
theorem loadRegs_vf {x : RegIx} (hx : x ≠ vf) : (s.loadRegs (x.toNat + 1)).reg vf = s.reg vf := by
  have hlt : x.toNat < 16 := x.isLt
  have hne : x.toNat ≠ 15 := fun h => hx (BitVec.eq_of_toNat_eq h)
  have hvf : vf.toNat = 15 := rfl
  rw [loadRegs_reg s _ (by omega), if_neg (by omega)]

/-- Settles O46: by what the instruction writes. -/
theorem flagHasOnlyItsWriters : Obligations.FlagHasOnlyItsWriters := by
  unfold Obligations.FlagHasOnlyItsWriters
  intro i s t h hflag hdest
  rcases exec_next_cases h with ⟨u, n, hu, rfl⟩ | ⟨x, rfl, rfl⟩
  · rw [setPc_reg]
    cases hu with
    | register x b e => exact setReg_vf (fun hx => destination_ne_vf hdest (hx ▸ e)) b
    | flagged x b c e => rw [isFlagged_eq_false hflag] at e; cases e
    | draw x y n _ _ e => exact absurd e (hflag x y n).2.2.2.2.2
    | store => rw [storeRegs_eq]; rfl
    | load x e =>
      obtain ⟨-, -, -, -, -, -, -, -, -, hmem⟩ := hdest 0 0
      exact loadRegs_vf fun hx => hmem (hx ▸ e)
    | _ => rfl
  · rfl

/-! ### The readers of the inputs -/

/-- A block store does not read the inputs. -/
theorem storeRegs_latch (s : State) (ks : Keys) (r : Byte) (n : Nat) : (s.latch ks r).storeRegs n = (s.storeRegs n).latch ks r := by
  induction n with
  | zero => rfl
  | succ n ih => rw [State.storeRegs, ih]; rfl

/-- A block load does not read the inputs. -/
theorem loadRegs_latch (s : State) (ks : Keys) (r : Byte) (n : Nat) : (s.latch ks r).loadRegs n = (s.loadRegs n).latch ks r := by
  induction n with
  | zero => rfl
  | succ n ih => rw [State.loadRegs, ih]; rfl

/-- An instruction that tests no key and draws nothing does with any inputs what it does without: the inputs only stay in the
latch. -/
theorem exec_latch (s : State) (ks : Keys) (r : Byte) (hk : ∀ x, i ≠ .skp x ∧ i ≠ .sknp x ∧ i ≠ .ldVxK x)
    (hr : ∀ x kk, i ≠ .rnd x kk) : exec i (s.latch ks r) = mapNext (fun t => t.latch ks r) (exec i s) := by
  cases i
  case skp x => exact absurd rfl (hk x).1
  case sknp x => exact absurd rfl (hk x).2.1
  case ldVxK x => exact absurd rfl (hk x).2.2
  case rnd x kk => exact absurd rfl (hr x kk)
  case ret =>
    cases h : s.stack with
    | nil => rw [exec_ret_nil s h, exec_ret_nil (s.latch ks r) h]; rfl
    | cons top rest => rw [exec_ret_cons s h, exec_ret_cons (s.latch ks r) h]; rfl
  case call nnn =>
    by_cases h : s.depth < stackDepth
    · rw [exec_call_push s nnn h, exec_call_push (s.latch ks r) nnn h]; rfl
    · rw [exec_call_full s nnn h, exec_call_full (s.latch ks r) nnn h]; rfl
  case ldFVx x =>
    cases h : s.nibbleOperand (s.reg x) with
    | none => rw [exec_ldFVx_none s x h, exec_ldFVx_none (s.latch ks r) x h]; rfl
    | some d => rw [exec_ldFVx_some s x h, exec_ldFVx_some (s.latch ks r) x h]; rfl
  case ldMemVx x => exact congrArg (fun u : State => Host.Outcome.next (u.bumpI x).advance) (storeRegs_latch s ks r _)
  case ldVxMem x => exact congrArg (fun u : State => Host.Outcome.next (u.bumpI x).advance) (loadRegs_latch s ks r _)
  all_goals rfl

/-- The inputs latched last are the ones that count. -/
theorem mapNext_latch_latch (a : Answer) (ks ks' : Keys) (r r' : Byte) :
    mapNext (fun t => t.latch ks' r') (mapNext (fun t => t.latch ks r) a) = mapNext (fun t => t.latch ks' r') a := by
  cases a <;> rfl

/-- Two executions with different inputs, for an instruction that reads neither. -/
theorem exec_latch_latch (s : State) (ks ks' : Keys) (r r' : Byte) (hk : ∀ x, i ≠ .skp x ∧ i ≠ .sknp x ∧ i ≠ .ldVxK x)
    (hr : ∀ x kk, i ≠ .rnd x kk) :
    exec i (s.latch ks' r') = mapNext (fun t => t.latch ks' r') (exec i (s.latch ks r)) := by
  rw [exec_latch s ks' r' hk hr, exec_latch s ks r hk hr, mapNext_latch_latch]

/-- RND does not read the keys. -/
theorem exec_rnd_latch_keys (s : State) (x : RegIx) (kk : Byte) (ks ks' : Keys) (r : Byte) :
    exec (.rnd x kk) (s.latch ks' r) = mapNext (fun t => t.latch ks' r) (exec (.rnd x kk) (s.latch ks r)) := rfl

/-- The key instructions do not read the draw. -/
theorem exec_key_latch_rnd (hi : ∃ x, i = .skp x ∨ i = .sknp x ∨ i = .ldVxK x) (s : State) (ks : Keys) (r r' : Byte) :
    exec i (s.latch ks r') = mapNext (fun t => t.latch ks r') (exec i (s.latch ks r)) := by
  obtain ⟨x, rfl | rfl | rfl⟩ := hi
  · cases h : s.nibbleOperand (s.reg x) with
    | none => rw [exec_skp_none (s.latch ks r) x h, exec_skp_none (s.latch ks r') x h]; rfl
    | some k => rw [exec_skp_some (s.latch ks r) x h, exec_skp_some (s.latch ks r') x h]; rfl
  · cases h : s.nibbleOperand (s.reg x) with
    | none => rw [exec_sknp_none (s.latch ks r) x h, exec_sknp_none (s.latch ks r') x h]; rfl
    | some k => rw [exec_sknp_some (s.latch ks r) x h, exec_sknp_some (s.latch ks r') x h]; rfl
  · cases h : lowestKey (s.latch ks r).firstCandidate with
    | none => rw [exec_ldVxK_none (s.latch ks r) x h, exec_ldVxK_none (s.latch ks r') x h]; rfl
    | some k => rw [exec_ldVxK_some (s.latch ks r) x h, exec_ldVxK_some (s.latch ks r') x h]; rfl

/-- Settles O47: the instructions that read neither input, and each reader of one for the other. -/
theorem inputsAreReadOnlyByTheirInstructions : Obligations.InputsAreReadOnlyByTheirInstructions := by
  unfold Obligations.InputsAreReadOnlyByTheirInstructions
  intro i s ks ks' r r'
  constructor
  · intro hk
    by_cases hr : ∃ x kk, i = .rnd x kk
    · obtain ⟨x, kk, rfl⟩ := hr
      exact exec_rnd_latch_keys s x kk ks ks' r
    · exact exec_latch_latch s ks ks' r r hk fun x kk e => hr ⟨x, kk, e⟩
  · intro hr
    by_cases hk : ∃ x, i = .skp x ∨ i = .sknp x ∨ i = .ldVxK x
    · exact exec_key_latch_rnd hk s ks r r'
    · exact exec_latch_latch s ks ks r r' (fun x => ⟨fun e => hk ⟨x, .inl e⟩, fun e => hk ⟨x, .inr (.inl e)⟩,
        fun e => hk ⟨x, .inr (.inr e)⟩⟩) hr

end Sys2Proof.Proofs.WholeMachine
end
